-- ==== Sys2Proof/Word.lean ====
section
/-! DEFINITION. The words of the block: a byte is an unsigned 0..255 (00_scope.md section 5), a
control register is 16 bits (R13, R33). -/

namespace Sys2Proof

/-- A byte of the link, of a buffer or of an operand: "all byte values are unsigned 0..255". -/
abbrev Byte := BitVec 8

/-- A control register, the gap counter, `TSNAP`: `TIMEOUT_W = 16` bits (R13, R33). -/
abbrev Half := BitVec 16

end Sys2Proof
end

