-- ==== Sys2Proof/Config.lean ====
section
/-! DEFINITION. The constants of 00_scope.md section 3 (R6 to R13) and the two parameters a model takes
(R11, R12). The parameters are held in State, which no step changes (log entry 18). -/

namespace Sys2Proof.Config

/-- `LEN_BIAS = 2`: the length byte is the payload length plus 2 (R6). -/
@[simp] abbrev lenBias : Nat := 2

/-- `OVERHEAD = 4`: the wire size is the payload length plus 4 (R6). -/
@[simp] abbrev overhead : Nat := 4

/-- `MIN_FRAME = 4`: the scanner's floor (R7). -/
@[simp] abbrev minFrame : Nat := 4

/-- `DEC_MIN = 5`: the floor of the standalone decode (R7). -/
@[simp] abbrev decMin : Nat := 5

/-- `SHORT_FLUSH = 4` (R8). -/
@[simp] abbrev shortFlush : Nat := 4

/-- `TIMEOUT_DEFAULT = 50` time units (R9). -/
abbrev timeoutDefault : Half := 50

/-- `MAX_PAYLOAD = 253` bytes (R10). -/
@[simp] abbrev maxPayload : Nat := 253

/-- `MAX_FRAME = 257` bytes (R10). -/
@[simp] abbrev maxFrame : Nat := 257

/-- `PEND_CAP = 257` bytes, a derived bound (R11, R171). -/
@[simp] abbrev pendCap : Nat := 257

/-- `DRAIN_POLICY` (R12). -/
inductive DrainPolicy where
  /-- go on moving and judging bytes until `PEND` is empty or a frame is accepted -/
  | fullDrain
  /-- one further inspection, then flush what is left -/
  | onePass
deriving DecidableEq, Repr

/-- The parameters of one block: `CORR_CAP` (R11; `none` is the infinite capacity of the source) and
`DRAIN_POLICY` (R12). -/
structure Params where
  corrCap : Option Nat
  drain   : DrainPolicy
deriving DecidableEq, Repr

/-- The defaults: unbounded `CORR` (D9) and `FULL_DRAIN` (R12). -/
def Params.default : Params := { corrCap := none, drain := .fullDrain }

end Sys2Proof.Config
end

