-- ==== Sys2Proof/Syntax.lean ====
section
/-! DEFINITION. The operations of the block, one constructor per row of spec/opcode_table.json (R3), and
the port transfers that carry the encoded ones (R70, R76, R81). -/

namespace Sys2Proof

/-- A frame: the triple the wire format carries (R22, R37, R70). -/
structure Frame where
  src     : Byte
  dst     : Byte
  payload : List Byte
deriving DecidableEq, Repr

/-- The two answers that make a no-data event (R158), the operand of `RD.NODATA` (R160). -/
inductive NoData where
  | timeout
  | eos
deriving DecidableEq, Repr

/-- `rx_kind` of a deposit (R81); code 3 is reserved and treated as an error (R131). -/
inductive RxKind where
  | byte
  | eos
  | err
  | reserved
deriving DecidableEq, Repr

/-- The operations (R3). The `len` of `enc` and `dec` is the 9-bit port operand `cmd_len` (R76); their
bytes come from the data-in stream (R110, R112, R195). -/
inductive Instr where
  /-- `NOP`, R191 -/
  | nop
  /-- `ENC src, dst`, with `cmd_len` payload bytes on data-in, R110 -/
  | enc (src dst : Byte) (len : BitVec 9)
  /-- `DEC`, with `cmd_len` wire bytes on data-in, R112 -/
  | dec (len : BitVec 9)
  /-- `READ`, R150 -/
  | read
  /-- `CLOSE`, R141 -/
  | close
  /-- `RDCR n`, R192 -/
  | rdcr (n : BitVec 4)
  /-- `WRCR n, v`, R193 -/
  | wrcr (n : BitVec 4) (v : Half)
  /-- any reserved command word, R194 -/
  | reserved (cmd : Byte)
  /-- `RD.AHEAD`, R151 -/
  | rdAhead
  /-- `RD.POPSHORT`, R153 -/
  | rdPopshort
  /-- `RD.ACCEPT`, R154 -/
  | rdAccept
  /-- `RD.POPBAD`, R155 -/
  | rdPopbad
  /-- `RD.NEEDMORE`, R156 -/
  | rdNeedmore
  /-- `RD.FETCH`, R157 -/
  | rdFetch
  /-- `RD.BYTE b`, R159 -/
  | rdByte (b : Byte)
  /-- `RD.NODATA a`, R160 -/
  | rdNodata (a : NoData)
  /-- `RD.FLUSH`, R161 -/
  | rdFlush
  /-- `RD.NULL`, R162 -/
  | rdNull
  /-- `RD.FAIL`, R163 -/
  | rdFail
  /-- `RD.OVF`, R166 -/
  | rdOvf
  /-- `CHK.CLR`, R101 -/
  | chkClr
  /-- `CHK.ACC v`, R102 -/
  | chkAcc (v : Byte)
  /-- `TMR.TICK`, R135 -/
  | tmrTick
  /-- `RX.DEPOSIT kind, data`, R131 -/
  | rxDeposit (kind : RxKind) (data : Byte)
  /-- the wire format `FRAME src, dst, [p...]` of a link script, R70, R85 -/
  | frame (src dst : Byte) (payload : List Byte)
deriving DecidableEq, Repr

/-- One transfer on the command port: the command word and the operands beside it (R76). -/
structure CmdWord where
  cmd : Byte
  a   : Byte
  b   : Byte
  len : BitVec 9
  val : Half
deriving DecidableEq, Repr

/-- What carries an encoded operation: format C on the command port (R76), format X on the ingress port
(R81, R131: `rx_kind` in bits 9:8, `rx_data` in bits 7:0), format W on the wire (R70). -/
inductive Transfer where
  | command (w : CmdWord)
  | ingress (bits : BitVec 10)
  | wire (bytes : List Byte)
deriving DecidableEq, Repr

end Sys2Proof
end

