-- ==== Sys2Proof/Machine/Codec.lean ====
section
/-! DEFINITION. The pure functions of the frame codec: the checksum (R100, R103), the wire form of a frame
(R70, R71, R110) and the standalone decode (R112). They hold no state (41_codec.md). -/

namespace Sys2Proof.Machine

/-- `XOR8` (R100): 0 for the empty sequence, and one more byte is one more exclusive-or. -/
def xor8 (s : List Byte) : Byte := s.foldl (fun acc v => acc ^^^ v) 0

/-- The length byte of a payload of `p` bytes: `LEN = p + 2` (R71). It is formed only for `p` in 0..253
(R111), where it fits a byte. -/
def lenByte (p : Nat) : Byte := BitVec.ofNat 8 (p + Config.lenBias)

/-- The total wire size a length byte claims: `expected = LEN + 2`, an unbounded integer 2..257 (R71). -/
def expectedSize (len : Byte) : Nat := len.toNat + 2

/-- The payload length a length byte declares: `declared = LEN - 2`, an unbounded integer -2..253 (R71). -/
def declaredLen (len : Byte) : Int := (len.toNat : Int) - 2

/-- The bytes of a frame before the checksum (R70). -/
def headerAndPayload (f : Frame) : List Byte :=
  f.src :: lenByte f.payload.length :: f.dst :: f.payload

/-- The wire form of a frame (R70): the checksum byte is the exclusive-or of all bytes before it. -/
def wireBytes (f : Frame) : List Byte := headerAndPayload f ++ [xor8 (headerAndPayload f)]

/-- The bytes `ENC` returns for a frame (R110), or none when the payload is longer than `MAX_PAYLOAD`
(R111: no wrapped length byte is ever computed). -/
def encodeFrame (f : Frame) : Option (List Byte) :=
  if f.payload.length ≤ Config.maxPayload then some (wireBytes f) else none

/-- The three errors of `DEC` (R211 to R213). -/
inductive DecError where
  | tooShort
  | lengthMismatch
  | checksumMismatch
deriving DecidableEq, Repr

/-- `DEC` as a pure function of its operand (R112), the checks in the order of R113. -/
def decodeFrame (b : List Byte) : Except DecError Frame :=
  if h : b.length < Config.decMin then .error .tooShort
  else
    have h5 : 5 ≤ b.length := Nat.le_of_not_lt h
    let declared := declaredLen (b[1]'(Nat.lt_of_lt_of_le (by decide) h5))
    if declared + Config.overhead ≠ (b.length : Int) then .error .lengthMismatch
    else if xor8 b.dropLast ≠ b[b.length - 1]'(Nat.sub_lt (Nat.lt_of_lt_of_le (by decide) h5) (by decide)) then
      .error .checksumMismatch
    else .ok { src := b[0]'(Nat.lt_of_lt_of_le (by decide) h5)
               dst := b[2]'(Nat.lt_of_lt_of_le (by decide) h5)
               payload := (b.drop 3).take declared.toNat }

end Sys2Proof.Machine
end

