-- ==== Sys2Proof/WellFormed.lean ====
section
/-! DEFINITION. Which operations are well formed: the operand values the encodings of 30_encoding.md
admit. -/

namespace Sys2Proof

/-- The field `op = bits[7:4]` of a command word (R76). -/
def cmdOp (cmd : Byte) : BitVec 4 := cmd.extractLsb' 4 4

/-- The field `n = bits[3:0]` of a command word (R76). -/
def cmdN (cmd : Byte) : BitVec 4 := cmd.extractLsb' 0 4

/-- The reserved command encodings, in the words of R78. -/
def isReservedWord (cmd : Byte) : Bool :=
  let op := (cmdOp cmd).toNat
  let n := (cmdN cmd).toNat
  (7 ≤ op) || (op ≤ 4 && n != 0) || (op == 5 && 4 ≤ n) || (op == 6 && 1 ≤ n)

/-- Well-formed operations: `RDCR` names one of `CR0`..`CR3` (R192), `WRCR` names `CR0` (R193), a reserved
operation is a reserved word (R78), a frame has at most `MAX_PAYLOAD` payload bytes (R10). Every other
operand takes every value its type holds. -/
def Instr.wf : Instr → Bool
  | .nop => true
  | .enc _ _ _ => true
  | .dec _ => true
  | .read => true
  | .close => true
  | .rdcr n => n.toNat ≤ 3
  | .wrcr n _ => n = 0
  | .reserved cmd => isReservedWord cmd
  | .rdAhead => true
  | .rdPopshort => true
  | .rdAccept => true
  | .rdPopbad => true
  | .rdNeedmore => true
  | .rdFetch => true
  | .rdByte _ => true
  | .rdNodata _ => true
  | .rdFlush => true
  | .rdNull => true
  | .rdFail => true
  | .rdOvf => true
  | .chkClr => true
  | .chkAcc _ => true
  | .tmrTick => true
  | .rxDeposit _ _ => true
  | .frame _ _ payload => payload.length ≤ Config.maxPayload

end Sys2Proof
end

