-- ==== Sys2Proof/Decode.lean ====
section
/-! DEFINITION. From transfers to operations and back (30_encoding.md). The decoder is total: it answers an
operation or a rejection with a name. The encoder is written from the same tables. -/

namespace Sys2Proof

/-- One row of the opcode map (R77) as opcode_table.json gives it: the word matches when
`cmd AND mask = value`. -/
structure CommandRow where
  mask  : Byte
  value : Byte
  make  : CmdWord → Instr

/-- The seven command rows (R77). Each takes the operands its rule names and ignores the others (R76). -/
def commandRows : List CommandRow :=
  [ { mask := 0xFF, value := 0x00, make := fun _ => .nop },
    { mask := 0xFF, value := 0x10, make := fun w => .enc w.a w.b w.len },
    { mask := 0xFF, value := 0x20, make := fun w => .dec w.len },
    { mask := 0xFF, value := 0x30, make := fun _ => .read },
    { mask := 0xFF, value := 0x40, make := fun _ => .close },
    { mask := 0xFC, value := 0x50, make := fun w => .rdcr (cmdN w.cmd) },
    { mask := 0xFF, value := 0x60, make := fun w => .wrcr (cmdN w.cmd) w.val } ]

/-- The command decoder: the first matching row, and `RESERVED` for a word no row matches (R78, the
lowest-priority row of the table). -/
def decodeCommand (w : CmdWord) : Instr :=
  match commandRows.find? (fun r => w.cmd &&& r.mask == r.value) with
  | some r => r.make w
  | none => .reserved w.cmd

/-- `rx_kind` from its code (R81). -/
def RxKind.ofCode (k : BitVec 2) : RxKind :=
  if k = 0 then .byte else if k = 1 then .eos else if k = 2 then .err else .reserved

/-- The code of an `rx_kind` (R81). -/
def RxKind.code : RxKind → BitVec 2
  | .byte => 0
  | .eos => 1
  | .err => 2
  | .reserved => 3

/-- An ingress transfer (R131): kind in bits 9:8, data in bits 7:0. -/
def decodeIngress (bits : BitVec 10) : Instr :=
  .rxDeposit (RxKind.ofCode (bits.extractLsb' 8 2)) (bits.extractLsb' 0 8)

/-- Why a byte sequence is not one frame of the wire format. -/
inductive Reject where
  /-- fewer bytes than the length byte claims, or no length byte at all (R72) -/
  | wireTruncated
  /-- a length byte of 0 or 1: the claimed size is below `MIN_FRAME` (R74) -/
  | wireLengthBelowMinimum
  /-- the exclusive-or of the frame's bytes is not 0 (R73) -/
  | wireChecksum
  /-- bytes after the end of the frame -/
  | wireTrailing
deriving DecidableEq, Repr

/-- One frame from the front of a byte sequence, and the rest (R70 to R73): the size is learnt from the
second byte. -/
def decodeWire (bytes : List Byte) : Except Reject (Instr × List Byte) :=
  match bytes with
  | src :: len :: tail =>
    if Machine.expectedSize len < Config.minFrame then .error .wireLengthBelowMinimum
    else if bytes.length < Machine.expectedSize len then .error .wireTruncated
    else if Machine.xor8 (bytes.take (Machine.expectedSize len)) ≠ 0 then .error .wireChecksum
    else
      match tail with
      | dst :: body =>
        .ok (.frame src dst (body.take (len.toNat - Config.lenBias)), bytes.drop (Machine.expectedSize len))
      | [] => .error .wireTruncated
  | _ => .error .wireTruncated

/-- The decoder, total on any transfer. -/
def decode : Transfer → Except Reject Instr
  | .command w => .ok (decodeCommand w)
  | .ingress bits => .ok (decodeIngress bits)
  | .wire bytes =>
    match decodeWire bytes with
    | .ok (i, []) => .ok i
    | .ok (_, _ :: _) => .error .wireTrailing
    | .error r => .error r

/-- A command transfer whose operands are all zero. -/
def plainCommand (cmd : Byte) : CmdWord := { cmd := cmd, a := 0, b := 0, len := 0, val := 0 }

/-- The encoder: the transfer of an encoded operation (R70, R77, R81), none for a micro-operation, which
has no encoding (opcode_table.json format U). Operands a command does not use are 0. -/
def encode : Instr → Option Transfer
  | .nop => some (.command (plainCommand 0x00))
  | .enc src dst len => some (.command { cmd := 0x10, a := src, b := dst, len := len, val := 0 })
  | .dec len => some (.command { cmd := 0x20, a := 0, b := 0, len := len, val := 0 })
  | .read => some (.command (plainCommand 0x30))
  | .close => some (.command (plainCommand 0x40))
  | .rdcr n => some (.command (plainCommand ((5 : BitVec 4) ++ n)))
  | .wrcr n v => some (.command { cmd := (6 : BitVec 4) ++ n, a := 0, b := 0, len := 0, val := v })
  | .reserved cmd => some (.command (plainCommand cmd))
  | .rdAhead => none
  | .rdPopshort => none
  | .rdAccept => none
  | .rdPopbad => none
  | .rdNeedmore => none
  | .rdFetch => none
  | .rdByte _ => none
  | .rdNodata _ => none
  | .rdFlush => none
  | .rdNull => none
  | .rdFail => none
  | .rdOvf => none
  | .chkClr => none
  | .chkAcc _ => none
  | .tmrTick => none
  | .rxDeposit kind data => some (.ingress (kind.code ++ data))
  | .frame src dst payload => some (.wire (Machine.wireBytes { src := src, dst := dst, payload := payload }))

/-- A number as bytes, the first byte in bits 7:0. -/
def bytesOfNat (k w : Nat) : List Byte :=
  (List.range k).map (fun i => BitVec.ofNat 8 (w >>> (8 * i)))

/-- The transfer that carries a table word of `nbits` bits (log entry 19): up to 8 bits are a command word
with operands of zero, up to 16 bits an ingress transfer, more are wire bytes followed by zeros. -/
def tableTransfer (nbits w : Nat) : Transfer :=
  if nbits ≤ 8 then .command (plainCommand (BitVec.ofNat 8 w))
  else if nbits ≤ 16 then .ingress (BitVec.ofNat 10 w)
  else .wire (bytesOfNat (nbits / 8) w ++ List.replicate Config.maxFrame 0)

/-- The operation the decoder reads from a table word; the zeros after a wire frame are not part of it. -/
def decodeTableWord (nbits w : Nat) : Option Instr :=
  match tableTransfer nbits w with
  | .wire bytes => (decodeWire bytes).toOption.map Prod.fst
  | t => (decode t).toOption

end Sys2Proof
end

