-- ==== Sys2Proof/Machine/State.lean ====
section
/-! DEFINITION. The state of the block (10_state.md), its response channels, the outside world as plain data
(log entry 3), and the state after reset (R240). -/

namespace Sys2Proof.Machine

open Sys2Proof.Config

/-- The mode of a real fetch (R133). -/
inductive FetchMode where
  | untimed
  | timed
deriving DecidableEq, Repr

/-- Where the reader stands while `RS = RS_FETCH` (R157): before `RD.FETCH` has decided, inside a real fetch
that waits in a mode (R134), or holding the answer that `RD.BYTE` or `RD.FAIL` handles next (log entry 9). -/
inductive FetchPhase where
  | decide
  | wait (m : FetchMode)
  | byte (b : Byte)
  | fail
deriving DecidableEq, Repr

/-- `RS`, the reader's control state (R28, R165). `nodata` carries the answer that `RD.NODATA` takes. -/
inductive ReaderState where
  | idle
  | inspect
  | fetch (p : FetchPhase)
  | nodata (a : NoData)
  | finish
deriving DecidableEq, Repr

/-- `SLOT`, the ingress slot (R30). -/
inductive Slot where
  | empty
  | byte (b : Byte)
  | eos
  | err
deriving DecidableEq, Repr

/-- The status names a response can carry (R79). -/
inductive Status where
  | ok
  | tooShort
  | lengthMismatch
  | checksumMismatch
  | ioFailure
  | badCommand
  | encRange
  | overflow
  | refused
  | internal
deriving DecidableEq, Repr

/-- The element kinds (R80); code 3 is never produced (93 I2). -/
inductive ElemKind where
  | null
  | valid
  | invalid
deriving DecidableEq, Repr

/-- The two response channels (R190). -/
inductive Channel where
  | system
  | reader
deriving DecidableEq, Repr

/-- The result fields of a system response (R83). A response with a status other than `ok` carries none:
no result field is meaningful then (log entry 6). -/
inductive SysBody where
  | none
  /-- `ENC`: `W_N` and `W_BUF` -/
  | wire (n : BitVec 9) (bytes : List Byte)
  /-- `DEC`: `F_SRC`, `F_DST`, `F_PLEN`, `F_PAY` -/
  | frame (src dst plen : Byte) (payload : List Byte)
  /-- `RDCR`: the value -/
  | value (v : Half)
deriving DecidableEq, Repr

/-- A response on the system channel (R83). -/
structure SysResp where
  status : Status
  body   : SysBody
deriving DecidableEq, Repr

/-- The element of a `READ` response (R39, R83). -/
inductive Element where
  | null
  | valid (src dst plen : Byte) (raw : List Byte)
  | invalid (raw : List Byte)
deriving DecidableEq, Repr

/-- A response on the reader channel (R83); an exception carries no element. -/
structure RdrResp where
  status : Status
  elem   : Option Element
deriving DecidableEq, Repr

/-- A system command that has been accepted and has not answered yet: `ENC` or `DEC` short of data-in
bytes (R196), `CLOSE` short of its acknowledgement (R141). -/
inductive SysWait where
  | encData (src dst : Byte) (len : BitVec 9)
  | decData (len : BitVec 9)
  | closeAck
deriving DecidableEq, Repr

/-- A command of the host script (R84): the transfer and the data-in bytes that go with it. -/
structure HostCmd where
  word : CmdWord
  data : List Byte
deriving DecidableEq, Repr

/-- An item of the link script (R84, R85). -/
inductive LinkItem where
  /-- one ingress transfer (R81, R131): with kind `byte` the item `hh`, with kind `err` the item `ERR` -/
  | deposit (kind : RxKind) (data : Byte)
  /-- `EOS`: answered `Eos`, and it stays (log entry 29) -/
  | eos
  /-- `GAP`: a pause -/
  | gap
  /-- `FRAME` -/
  | frame (f : Frame)
deriving DecidableEq, Repr

/-- `CloseAnswer`: the transport's close result (R141). -/
inductive CloseAnswer where
  | ok
  | err
deriving DecidableEq, Repr

/-- Whose turn it is, with what the turn brings in (log entry 1). -/
inductive Turn where
  /-- the host's command port: the next command is offered -/
  | host
  /-- the host supplies data-in bytes -/
  | hostData (bytes : List Byte)
  /-- the system line completes a waiting command -/
  | sys
  /-- the reader makes a micro-step -/
  | rsy
  /-- the transport offers the next link item -/
  | xport
  /-- a `tick` strobe -/
  | tick
  /-- the transport's close result becomes available -/
  | closeAck (a : CloseAnswer)
  /-- the host takes the system response -/
  | takeSys
  /-- the host takes the reader response -/
  | takeRdr
  /-- `rst` -/
  | rst
deriving DecidableEq, Repr

/-- Why the machine stops with a fault. The spec names no condition that stops it: every exception is a
response with a status code (R223), so this type has no constructor (log entry 24; safe and unsafe do not
arise). -/
inductive Fault where
deriving DecidableEq, Repr

/-- Why an operation is refused. -/
inductive Refusal where
  /-- Raised by an arm of `exec` whose instruction has no meaning yet; no arm does. Safe: nothing can be
  proved about what the instruction does. -/
  | notModelled (mnemonic : String)
deriving DecidableEq, Repr

/-- The state: the block's own (10_state.md), then its channels, then the outside world as data. -/
structure State where
  /-- `PEND` (R20) -/
  pend   : List Byte
  /-- `CORR` (R21) -/
  corr   : List Byte
  /-- `PRES` (R22) -/
  pres   : Option Frame
  /-- `EOSR` (R23) -/
  eosr   : Bool
  /-- `SUSP` (R24) -/
  susp   : Bool
  /-- `NOMORE` (R25) -/
  nomore : Bool
  /-- `FAILED` (R26) -/
  failed : Bool
  /-- `OVF` (R27) -/
  ovf    : Bool
  /-- `CLOSED` (R29) -/
  closed : Bool
  /-- `RS` (R28) with the reader's place inside the fetch point -/
  rs     : ReaderState
  /-- `SLOT` (R30) -/
  slot   : Slot
  /-- `GAPCNT` (R31) -/
  gapcnt : Half
  /-- `TSNAP` (R31) -/
  tsnap  : Half
  /-- `CHKACC` (R32) -/
  chkacc : Byte
  /-- `CR0` `TIMEOUT` (R33) -/
  cr0    : Half
  /-- `F_SRC` (R37) -/
  fSrc   : Byte
  /-- `F_DST` (R37) -/
  fDst   : Byte
  /-- `F_PLEN` (R37) -/
  fPlen  : Byte
  /-- `F_PAY` (R37) -/
  fPay   : List Byte
  /-- `W_N` (R37) -/
  wN     : BitVec 9
  /-- `W_BUF` (R37) -/
  wBuf   : List Byte
  /-- `E_KIND` (R39) -/
  eKind  : ElemKind
  /-- `E_SRC` (R39) -/
  eSrc   : Byte
  /-- `E_DST` (R39) -/
  eDst   : Byte
  /-- `E_PLEN` (R39) -/
  ePlen  : Byte
  /-- `E_RAW` (R39); `E_N` is its length -/
  eRaw   : List Byte
  /-- the system response channel (R83, R190) -/
  sr     : Option SysResp
  /-- the reader response channel (R83, R190) -/
  rr     : Option RdrResp
  /-- the accepted system command that waits (R141, R196) -/
  sysWait : Option SysWait
  /-- `CORR_CAP`, `DRAIN_POLICY` (R11, R12): no step writes them -/
  params : Params
  /-- the host script still to come (R84; the model's own field) -/
  hostQ  : List HostCmd
  /-- data-in bytes offered and not taken (R195; the model's own field) -/
  hdIn   : List Byte
  /-- the link script still to come (R84; the model's own field) -/
  linkQ  : List LinkItem
  /-- the transport's close acknowledgement (R141; the model's own field); a `CLOSE` does not use it up (log entry
  15) -/
  closeAns : Option CloseAnswer
  /-- pulses given on `xp_close` (R141; the model's own field) -/
  xpClose : Nat
  /-- whose turns come next (the model's own field, log entry 1) -/
  sched  : List Turn
  /-- system responses the host has taken, oldest first (the model's own field) -/
  sysLog : List SysResp
  /-- reader responses the host has taken, oldest first (the model's own field) -/
  rdrLog : List RdrResp
deriving DecidableEq, Repr

/-- The state after reset: R240 and the table of 10_state.md section 9. The scratch registers `F_*`, `W_*`,
`E_*` have no reset value in the spec; the zeros here are log entry 5. The model's own fields are empty
(log entry 3), and the transport stands ready to acknowledge a close (log entry 15). -/
def State.reset : State where
  pend := []
  corr := []
  pres := none
  eosr := false
  susp := false
  nomore := false
  failed := false
  ovf := false
  closed := false
  rs := .idle
  slot := .empty
  gapcnt := 0
  tsnap := 50
  chkacc := 0
  cr0 := timeoutDefault
  fSrc := 0
  fDst := 0
  fPlen := 0
  fPay := []
  wN := 0
  wBuf := []
  eKind := .null
  eSrc := 0
  eDst := 0
  ePlen := 0
  eRaw := []
  sr := none
  rr := none
  sysWait := none
  params := Params.default
  hostQ := []
  hdIn := []
  linkQ := []
  closeAns := some .ok
  xpClose := 0
  sched := []
  sysLog := []
  rdrLog := []

/-- What every meaning answers. -/
abbrev Out := Host.Outcome State Fault Refusal

end Sys2Proof.Machine
end

