-- ==== Sys2Proof/Machine/Flags.lean ====
section
/-! DEFINITION. The codes of 30_encoding.md section 3 and the read-only views of 10_state.md section 6:
`CR1` STATUS, `CR2` PENDN, `CR3` CORRN (R34 to R36, R43). -/

namespace Sys2Proof.Machine

/-- The status codes (R79); 10 to 15 are never produced. -/
def Status.code : Status → BitVec 4
  | .ok => 0
  | .tooShort => 1
  | .lengthMismatch => 2
  | .checksumMismatch => 3
  | .ioFailure => 4
  | .badCommand => 5
  | .encRange => 6
  | .overflow => 7
  | .refused => 8
  | .internal => 9

/-- The element kind codes (R80). -/
def ElemKind.code : ElemKind → BitVec 2
  | .null => 0
  | .valid => 1
  | .invalid => 2

/-- The codes of `RS` (R28). -/
def ReaderState.code : ReaderState → BitVec 3
  | .idle => 0
  | .inspect => 1
  | .fetch _ => 2
  | .nodata _ => 3
  | .finish => 4

/-- `PRESV`: 1 when `PRES` is not `none` (R34). -/
def State.presv (s : State) : Bool := s.pres.isSome

/-- `SLOTF`: 1 when `SLOT` is not `Empty` (R34). -/
def State.slotf (s : State) : Bool := s.slot != .empty

/-- `CR1` STATUS, composed from live state: bits 15:11 read 0, 10:8 `RS`, then `SLOTF`, `NOMORE`, `CLOSED`,
`OVF`, `FAILED`, `PRESV`, `SUSP`, `EOSR` down to bit 0 (R34). -/
def statusWord (s : State) : Half :=
  (0 : BitVec 5) ++ s.rs.code ++ BitVec.ofBool s.slotf ++ BitVec.ofBool s.nomore ++ BitVec.ofBool s.closed
    ++ BitVec.ofBool s.ovf ++ BitVec.ofBool s.failed ++ BitVec.ofBool s.presv ++ BitVec.ofBool s.susp
    ++ BitVec.ofBool s.eosr

/-- `CR2` PENDN: bits 8:0 are `len(PEND)`, bits 15:9 read 0 (R35). -/
def pendn (s : State) : Half := (0 : BitVec 7) ++ BitVec.ofNat 9 s.pend.length

/-- `CR3` CORRN: `min(len(CORR), 65535)` (R36). -/
def corrn (s : State) : Half := BitVec.ofNat 16 (min s.corr.length 65535)

/-- `E_N`, the number of bytes of `E_RAW` (R39, log entry 25). -/
def State.eN (s : State) : Nat := s.eRaw.length

end Sys2Proof.Machine
end

