-- ==== Sys2Proof/Machine/Operands.lean ====
section
/-! DEFINITION. Where operations find their operands: the control registers (R33 to R36), the data-in stream
(R195, R196), the queue reads (R53), and the candidate at the front of `PEND` (R153 to R156). -/

namespace Sys2Proof.Machine

/-- `x[n]`, the read of control register `CRn`; no register beyond `CR3` exists (R56, R192). -/
def crRead (n : BitVec 4) (s : State) : Option Half :=
  if n = 0 then some s.cr0
  else if n = 1 then some (statusWord s)
  else if n = 2 then some (pendn s)
  else if n = 3 then some (corrn s)
  else none

/-- `x[n] <- v`: only `CR0` can be written (R193). -/
def crWrite (n : BitVec 4) (v : Half) (s : State) : Option State :=
  if n = 0 then some { s with cr0 := v } else none

/-- `n` operand bytes from the data-in stream and the stream after them, or none while fewer are there:
the operation completes only when the last has been taken (R112, R196). -/
def takeData (n : Nat) (s : State) : Option (List Byte × State) :=
  if s.hdIn.length < n then none
  else some (s.hdIn.take n, { s with hdIn := s.hdIn.drop n })

/-- `BufRead(Q, i)`: the byte at index `i`, none at or beyond the length (R52, R53). -/
def bufRead (q : List Byte) (i : Nat) : Option Byte := q[i]?

/-- `PopFront(Q)`: the oldest byte and the rest; requires one byte (R53). -/
def popFront : List Byte → Option (Byte × List Byte)
  | [] => none
  | v :: rest => some (v, rest)

/-- `RemoveFront(Q, n)`; requires `n <= len(Q)` (R53). -/
def removeFront (q : List Byte) (n : Nat) : Option (List Byte) :=
  if n ≤ q.length then some (q.drop n) else none

/-- `Append(Q, v)`: one byte at the back (R53). -/
def append (q : List Byte) (v : Byte) : List Byte := q ++ [v]

/-- What the inspection finds at the front of `PEND` (43_reader.md section 3). -/
inductive Verdict where
  | short
  | accept
  | bad
  | needMore
deriving DecidableEq, Repr

/-- The inspection of R150: exactly one of R153 (`short`), R154 (`accept`), R155 (`bad`), R156 (`needMore`). -/
def judge (pend : List Byte) : Verdict :=
  match bufRead pend 1 with
  | none => .needMore
  | some len =>
    if expectedSize len < Config.minFrame then .short
    else if pend.length < expectedSize len then .needMore
    else if xor8 (pend.take (expectedSize len)) = 0 then .accept
    else .bad

/-- The complete candidate at the front of `PEND`: the bytes `PEND[0..expected)` and what stands behind them.
None when a byte it needs is not there, or when `expected` is below the smallest frame (R52, R154). -/
def candidate (pend : List Byte) : Option (List Byte × List Byte) :=
  match bufRead pend 1 with
  | none => none
  | some len =>
    if expectedSize len < Config.minFrame then none
    else (removeFront pend (expectedSize len)).map (fun rest => (pend.take (expectedSize len), rest))

/-- The frame a complete candidate stands for: `src = PEND[0]`, `dst = PEND[2]`,
`payload = PEND[3 .. expected-1)` (R154). -/
def frameOf : List Byte → Option Frame
  | src :: _ :: dst :: body => some { src := src, dst := dst, payload := body.dropLast }
  | _ => none

end Sys2Proof.Machine
end

