-- ==== Sys2Proof/Machine/Ops.lean ====
section
/-! DEFINITION. The shared operations over the state: responding, taking an exception (R223), the checksum unit
(R101, R102), the moves of the reader's bytes (R53, R166), the real fetch (R134), and when a command is
accepted (R190, R254). -/

namespace Sys2Proof.Machine

/-- `raise <Exception>`, the entry sequence of R223 after the exception's own state writes: for a `READ`
`RS <- RS_IDLE`; then the response with the status code on its channel. Nothing is saved and nothing is
jumped to. There is no return operation to stand beside it (R224). -/
def raise (ch : Channel) (st : Status) (s : State) : State :=
  match ch with
  | .system => { s with sr := some { status := st, body := .none } }
  | .reader => { s with rs := .idle, rr := some { status := st, elem := none } }

/-- `respond(...)` on the system channel: status `ST_OK` and the results (R83). -/
def respond (body : SysBody) (s : State) : State :=
  { s with sr := some { status := .ok, body := body } }

/-- `E_KIND`, `E_SRC`, `E_DST`, `E_PLEN`, `E_RAW` for an element (R39). For Null only `E_KIND` and `E_N` are
written (R162). -/
def latchElement (e : Element) (s : State) : State :=
  match e with
  | .null => { s with eKind := .null, eRaw := [] }
  | .valid src dst plen raw =>
    { s with eKind := .valid, eSrc := src, eDst := dst, ePlen := plen, eRaw := raw }
  | .invalid raw => { s with eKind := .invalid, eSrc := 0, eDst := 0, ePlen := 0, eRaw := raw }

/-- `RS <- RS_IDLE ; respond(element)`: the end of a `READ` with status `ST_OK` (R150, R223). -/
def respondElement (e : Element) (s : State) : State :=
  { latchElement e s with rs := .idle, rr := some { status := .ok, elem := some e } }

/-- The Valid element of a frame with its raw view (R39, R151, R154). -/
def validElement (f : Frame) (raw : List Byte) : Element :=
  .valid f.src f.dst (BitVec.ofNat 8 f.payload.length) raw

/-- `raise InternalFault` (R216): `RS <- RS_IDLE` and the status, nothing else. Raised at the end of a `READ`
that has nothing to return (R167), and by a guard on a buffer index that fails (R52, log entry 13). -/
def internalFault (s : State) : State := raise .reader .internal s

/-- `CHK.CLR` (R101). -/
def chkClear (s : State) : State := { s with chkacc := 0 }

/-- `CHK.ACC v` (R102). -/
def chkAccumulate (v : Byte) (s : State) : State := { s with chkacc := s.chkacc ^^^ v }

/-- One checksum evaluation: `CHK.CLR`, then `CHK.ACC` of each byte in order (R101, R102). -/
def chkSum (bytes : List Byte) (s : State) : State :=
  bytes.foldl (fun t v => chkAccumulate v t) (chkClear s)

/-- `RD.AHEAD` for a held frame (R151). -/
def deliverHeld (f : Frame) (s : State) : State :=
  respondElement (validElement f (wireBytes f)) { s with pres := none }

/-- `RD.OVF` (R166): sticky `OVF`, and the `READ` ends with `Overflow`. -/
def overflow (s : State) : State := raise .reader .overflow { s with ovf := true }

/-- `PushCorr(v)` (R166): `.ok` with the byte at the back of `CORR`, or `.error` with the state `RD.OVF`
leaves when `CORR` is full. `CORR` is never full when `CORR_CAP` is infinite. -/
def pushCorr (v : Byte) (s : State) : Except State State :=
  if s.params.corrCap = some s.corr.length then .error (overflow s)
  else .ok { s with corr := append s.corr v }

/-- `PushCorr(PopFront(PEND))`; an empty `PEND` fails the guard of `PopFront` (R52, R53). -/
def moveOldest (s : State) : Except State State :=
  match popFront s.pend with
  | none => .error (internalFault s)
  | some (v, rest) => pushCorr v { s with pend := rest }

/-- `while len(PEND) > 0 do PushCorr(PopFront(PEND))`, oldest first (R160); the recursion is over the bytes
`PEND` holds. -/
def moveAll : List Byte → State → Except State State
  | [], s => .ok s
  | v :: rest, s =>
    match pushCorr v { s with pend := rest } with
    | .ok t => moveAll rest t
    | .error t => .error t

/-- `m` of R133: untimed when `PEND` is empty or `CR0 = 0`. -/
def fetchMode (s : State) : FetchMode :=
  if s.pend = [] ∨ s.cr0 = 0 then .untimed else .timed

/-- What a wait adds when it begins: a timed wait clears `GAPCNT` and samples `CR0` into `TSNAP` (R31, R134). -/
def beginWait (m : FetchMode) (s : State) : State :=
  match m with
  | .untimed => { s with rs := .fetch (.wait .untimed) }
  | .timed => { s with gapcnt := 0, tsnap := s.cr0, rs := .fetch (.wait .timed) }

/-- The first two lines of R134: a result in the slot is taken at once, and an empty slot of a closed ingress
answers `Fail` (R140, R142). None when neither holds. `Eos` goes on to `RS_NODATA`, `Byte` and `Fail` stay at
the fetch point for `RD.BYTE` and `RD.FAIL` (R157). -/
def pollSlot (s : State) : Option State :=
  match s.slot with
  | .byte b => some { s with slot := .empty, rs := .fetch (.byte b) }
  | .eos => some { s with slot := .empty, rs := .nodata .eos }
  | .err => some { s with slot := .empty, rs := .fetch .fail }
  | .empty => if s.closed then some { s with rs := .fetch .fail } else none

/-- A real fetch in mode `m` (R134): answered at once, or the wait begins. -/
def realFetch (m : FetchMode) (s : State) : State := (pollSlot s).getD (beginWait m s)

/-- `rx_ready` (R143). -/
def rxReady (s : State) : Bool := s.slot = .empty && !s.closed

/-- The slot's content after a deposit (R131). -/
def slotOf (kind : RxKind) (data : Byte) : Slot :=
  match kind with
  | .byte => .byte data
  | .eos => .eos
  | .err => .err
  | .reserved => .err

/-- A `READ` can be accepted: none is in progress (R190) and the last reader response has been taken
(R254). -/
def readReady (s : State) : Bool := s.rs = .idle && s.rr.isNone

/-- A system command can be accepted: the one before has answered and its response has been taken (R190,
R254). -/
def sysReady (s : State) : Bool := s.sr.isNone && s.sysWait.isNone

/-- The response of a `CLOSE` once the transport has acknowledged (R141). -/
def closeRespond (a : CloseAnswer) (s : State) : State :=
  match a with
  | .ok => respond .none s
  | .err => raise .system .ioFailure s

end Sys2Proof.Machine
end

