-- ==== Sys2Proof/Machine/Checksum.lean ====
section
/-! DEFINITION. The checksum unit's two micro-operations (40_checksum.md). -/

namespace Sys2Proof.Machine

/-- `CHK.CLR` (R101): `CHKACC <- 0x00`. -/
def execChkClr (s : State) : Out := .next (chkClear s)

/-- `CHK.ACC v` (R102): `CHKACC <- CHKACC xor v`. -/
def execChkAcc (v : Byte) (s : State) : Out := .next (chkAccumulate v s)

end Sys2Proof.Machine
end

