-- ==== Sys2Proof/Machine/CodecUnit.lean ====
section
/-! DEFINITION. The frame encoder and decoder (41_codec.md): `ENC`, `DEC`. -/

namespace Sys2Proof.Machine

/-- `ENC` once its payload is in hand (R110): the operand registers, the checksum evaluation, `W_N`, `W_BUF`
and the response. -/
def encFinish (src dst : Byte) (payload : List Byte) (s : State) : State :=
  let f : Frame := { src := src, dst := dst, payload := payload }
  let t := chkSum (headerAndPayload f)
    { s with fSrc := src, fDst := dst, fPlen := BitVec.ofNat 8 payload.length, fPay := payload }
  let wire := headerAndPayload f ++ [t.chkacc]
  let n := BitVec.ofNat 9 (payload.length + Config.overhead)
  respond (.wire n wire) { t with wN := n, wBuf := wire }

/-- `ENC src, dst, payload` (R110, R111): more than 253 bytes are refused with no byte taken; with too few
bytes on data-in the command waits (R196); else the wire bytes are the response. -/
def execEnc (src dst : Byte) (len : BitVec 9) (s : State) : Out :=
  if Config.maxPayload < len.toNat then .next (raise .system .encRange s)
  else
    match takeData len.toNat s with
    | none => .next { s with sysWait := some (.encData src dst len) }
    | some (payload, t) => .next (encFinish src dst payload t)

/-- The status of a `DEC` error (R211 to R213). -/
def DecError.status : DecError → Status
  | .tooShort => .tooShort
  | .lengthMismatch => .lengthMismatch
  | .checksumMismatch => .checksumMismatch

/-- What `DEC` leaves in the checksum accumulator: cleared at the start (R101), and the sum of all bytes but
the last when the third check is reached (R112). -/
def decSum (b : List Byte) (s : State) : State :=
  match decodeFrame b with
  | .error .tooShort => chkClear s
  | .error .lengthMismatch => chkClear s
  | .error .checksumMismatch => chkSum b.dropLast s
  | .ok _ => chkSum b.dropLast s

/-- `DEC` once its operand is in hand (R112): `W_N` and `W_BUF` hold the operand; a failed check raises its
status, else the frame is the response. -/
def decFinish (len : BitVec 9) (b : List Byte) (s : State) : State :=
  let t := decSum b { s with wN := len, wBuf := b }
  match decodeFrame b with
  | .error e => raise .system e.status t
  | .ok f =>
    let plen := BitVec.ofNat 8 f.payload.length
    respond (.frame f.src f.dst plen f.payload)
      { t with fSrc := f.src, fDst := f.dst, fPlen := plen, fPay := f.payload }

/-- `DEC b` (R112, R113): all `cmd_len` bytes are taken before the first check; with too few on data-in the
command waits (R196). -/
def execDec (len : BitVec 9) (s : State) : Out :=
  match takeData len.toNat s with
  | none => .next { s with sysWait := some (.decData len) }
  | some (b, t) => .next (decFinish len b t)

end Sys2Proof.Machine
end

