-- ==== Sys2Proof/Machine/Ingress.lean ====
section
/-! DEFINITION. The ingress (42_ingress.md): `CLOSE`, `RX.DEPOSIT`, `TMR.TICK`, and the link script's
`FRAME`. -/

namespace Sys2Proof.Machine

/-- `CLOSE` (R141, R142): a second one is refused; else `CLOSED <- 1`, one pulse on `xp_close`, and the
response follows the transport's acknowledgement, at once when it is there. The acknowledgement is not used up by
the `CLOSE` it answers, so one that is still there answers a later `CLOSE` after `rst` too: the spec does not say
(log entry 15, DESIGN CHOICE). -/
def execClose (s : State) : Out :=
  if s.closed then .next (raise .system .refused s)
  else
    let t := { s with closed := true, xpClose := s.xpClose + 1 }
    match t.closeAns with
    | some a => .next (closeRespond a t)
    | none => .next { t with sysWait := some .closeAck }

/-- `RX.DEPOSIT kind, data` (R131): the slot is filled when `rx_ready` is 1 (R143); else the offer is not
taken. -/
def execRxDeposit (kind : RxKind) (data : Byte) (s : State) : Out :=
  if rxReady s then .next { s with slot := slotOf kind data } else .next s

/-- `TMR.TICK` (R135): during a timed wait with an empty slot `GAPCNT` counts, and at `TSNAP` the fetch is
answered `Timeout`; a result in the slot and `CLOSED` come before the tick (R134, R136, R222). Outside a timed
wait a tick does nothing. -/
def execTmrTick (s : State) : Out :=
  if s.rs = .fetch (.wait .timed) ∧ s.slot = .empty ∧ s.closed = false then
    let t := { s with gapcnt := s.gapcnt + 1 }
    if t.gapcnt = t.tsnap then .next { t with rs := .nodata .timeout } else .next t
  else .next s

/-- `FRAME src, dst, [p...]` of a link script (R85): it stands for the bytes `ENC` returns, which the
transport then deposits one by one. `ENC` returns no bytes for more than 253 payload bytes (R111). -/
def execFrame (src dst : Byte) (payload : List Byte) (s : State) : Out :=
  match encodeFrame { src := src, dst := dst, payload := payload } with
  | some bytes => .next { s with linkQ := bytes.map (LinkItem.deposit .byte) ++ s.linkQ }
  | none => .next s

end Sys2Proof.Machine
end

