-- ==== Sys2Proof/Machine/Reader.lean ====
section
/-! DEFINITION. The resynchronizing frame reader (43_reader.md): the start of a `READ` and the twelve
micro-operations. -/

namespace Sys2Proof.Machine

/-- The start of a `READ` (R150 to R152): a held frame is returned at once by `RD.AHEAD`; then the sticky
faults; else the scan begins. A `READ` that is not accepted (R190, R254) has no effect. -/
def execRead (s : State) : Out :=
  if readReady s then
    match s.pres with
    | some f => .next (deliverHeld f s)
    | none =>
      if s.failed then .next (raise .reader .ioFailure s)
      else if s.ovf then .next (raise .reader .overflow s)
      else .next { s with nomore := false, rs := .inspect }
  else .next s

/-- `RD.AHEAD` (R151). -/
def execRdAhead (s : State) : Out :=
  match s.pres with
  | some f => .next (deliverHeld f s)
  | none => .next (internalFault s)

/-- `RD.POPSHORT` (R153). -/
def execRdPopshort (s : State) : Out :=
  match moveOldest s with
  | .ok t => .next { t with rs := .inspect }
  | .error t => .next t

/-- `RD.ACCEPT` (R154), with the checksum evaluation of the candidate (R101). -/
def execRdAccept (s : State) : Out :=
  match candidate s.pend with
  | none => .next (internalFault s)
  | some (raw, rest) =>
    match frameOf raw with
    | none => .next (internalFault s)
    | some f =>
      let t := { chkSum raw s with pend := rest }
      if t.corr = [] then .next (respondElement (validElement f raw) t)
      else .next (respondElement (.invalid t.corr) { t with corr := [], pres := some f })

/-- `RD.POPBAD` (R155), with the checksum evaluation of the candidate (R101). -/
def execRdPopbad (s : State) : Out :=
  match candidate s.pend with
  | none => .next (internalFault s)
  | some (raw, _) =>
    match moveOldest (chkSum raw s) with
    | .ok t => .next { t with rs := .inspect }
    | .error t => .next t

/-- `RD.NEEDMORE` (R156). -/
def execRdNeedmore (s : State) : Out := .next { s with rs := .fetch .decide }

/-- The decision of `RD.FETCH` (R157), branches (a), (b), (c), (d) in order. -/
def fetchDecide (s : State) : State :=
  if s.nomore ∧ (s.params.drain = .onePass ∨ s.pend = []) then { s with rs := .finish }
  else if s.eosr then { s with rs := .nodata .eos }
  else if s.susp ∧ s.pend ≠ [] then { s with rs := .nodata .timeout }
  else realFetch (fetchMode s) { s with susp := false }

/-- `RD.FETCH` (R157): the decision, or, when a real fetch already waits, the tests of R134 again. -/
def execRdFetch (s : State) : Out :=
  match s.rs with
  | .fetch (.wait _) => .next ((pollSlot s).getD s)
  | .fetch .decide => .next (fetchDecide s)
  | .fetch (.byte _) => .next (fetchDecide s)
  | .fetch .fail => .next (fetchDecide s)
  | .idle => .next (fetchDecide s)
  | .inspect => .next (fetchDecide s)
  | .nodata _ => .next (fetchDecide s)
  | .finish => .next (fetchDecide s)

/-- `RD.BYTE b` (R159). -/
def execRdByte (b : Byte) (s : State) : Out := .next { s with pend := append s.pend b, rs := .inspect }

/-- The flags `RD.NODATA` writes first (R160). -/
def noDataFlags (a : NoData) (s : State) : State :=
  { s with eosr := s.eosr || a == .eos, nomore := true }

/-- The bytes `RD.NODATA` moves (R160): all of `PEND` when it holds at most `SHORT_FLUSH` bytes, else the
oldest. -/
def noDataMove (s : State) : Except State State :=
  if s.pend.length ≤ Config.shortFlush then moveAll s.pend s else moveOldest s

/-- `RD.NODATA a` (R160). -/
def execRdNodata (a : NoData) (s : State) : Out :=
  match noDataMove (noDataFlags a s) with
  | .ok t => .next { t with susp := true, rs := .inspect }
  | .error t => .next t

/-- `RD.FLUSH` (R161): `CORR` first, `PEND` after it. -/
def execRdFlush (s : State) : Out :=
  .next (respondElement (.invalid (s.corr ++ s.pend)) { s with corr := [], pend := [] })

/-- `RD.NULL` (R162). -/
def execRdNull (s : State) : Out := .next (respondElement .null s)

/-- `RD.FAIL` (R163). -/
def execRdFail (s : State) : Out := .next (raise .reader .ioFailure { s with failed := true })

/-- `RD.OVF` (R166). -/
def execRdOvf (s : State) : Out := .next (overflow s)

end Sys2Proof.Machine
end

