-- ==== Sys2Proof/Machine/System.lean ====
section
/-! DEFINITION. The system commands (44_system.md): `NOP`, `RDCR`, `WRCR`, and the reserved commands. -/

namespace Sys2Proof.Machine

/-- `NOP` (R191). -/
def execNop (s : State) : Out := .next (respond .none s)

/-- `RDCR n` (R192): the value, or `BadCommand` where no such register exists. -/
def execRdcr (n : BitVec 4) (s : State) : Out :=
  match crRead n s with
  | some v => .next (respond (.value v) s)
  | none => .next (raise .system .badCommand s)

/-- `WRCR n, v` (R193): `CR0 <- v`, or `BadCommand` with no state change for every other number. -/
def execWrcr (n : BitVec 4) (v : Half) (s : State) : Out :=
  match crWrite n v s with
  | some t => .next (respond .none t)
  | none => .next (raise .system .badCommand s)

/-- A reserved command (R194): `BadCommand` on the system channel whatever the word is, no state change, no
data-in byte taken. -/
def execReserved (_cmd : Byte) (s : State) : Out := .next (raise .system .badCommand s)

end Sys2Proof.Machine
end

