-- ==== Sys2Proof/Machine/Dispatch.lean ====
section
/-! DEFINITION. One arm per operation (R3). -/

namespace Sys2Proof.Machine

def exec (i : Instr) (s : State) : Host.Outcome State Fault Refusal :=
  match i with
  | .nop => Sys2Proof.Machine.execNop s
  | .enc src dst len => Sys2Proof.Machine.execEnc src dst len s
  | .dec len => Sys2Proof.Machine.execDec len s
  | .read => Sys2Proof.Machine.execRead s
  | .close => Sys2Proof.Machine.execClose s
  | .rdcr n => Sys2Proof.Machine.execRdcr n s
  | .wrcr n v => Sys2Proof.Machine.execWrcr n v s
  | .reserved cmd => Sys2Proof.Machine.execReserved cmd s
  | .rdAhead => Sys2Proof.Machine.execRdAhead s
  | .rdPopshort => Sys2Proof.Machine.execRdPopshort s
  | .rdAccept => Sys2Proof.Machine.execRdAccept s
  | .rdPopbad => Sys2Proof.Machine.execRdPopbad s
  | .rdNeedmore => Sys2Proof.Machine.execRdNeedmore s
  | .rdFetch => Sys2Proof.Machine.execRdFetch s
  | .rdByte b => Sys2Proof.Machine.execRdByte b s
  | .rdNodata a => Sys2Proof.Machine.execRdNodata a s
  | .rdFlush => Sys2Proof.Machine.execRdFlush s
  | .rdNull => Sys2Proof.Machine.execRdNull s
  | .rdFail => Sys2Proof.Machine.execRdFail s
  | .rdOvf => Sys2Proof.Machine.execRdOvf s
  | .chkClr => Sys2Proof.Machine.execChkClr s
  | .chkAcc v => Sys2Proof.Machine.execChkAcc v s
  | .tmrTick => Sys2Proof.Machine.execTmrTick s
  | .rxDeposit kind data => Sys2Proof.Machine.execRxDeposit kind data s
  | .frame src dst payload => Sys2Proof.Machine.execFrame src dst payload s

end Sys2Proof.Machine
end

