-- ==== Sys2Proof/Machine/Turns.lean ====
section
/-! DEFINITION. Who moves next and what a turn does (00_scope.md section 4, R190, R229; log entries 1 to 4). A
turn either runs one operation through `exec` or lets the outside world change one of its own fields. -/

namespace Sys2Proof.Machine

/-- What the reader does next. -/
inductive Micro where
  /-- a micro-operation, selected by state (opcode_table.json format U) -/
  | run (i : Instr)
  /-- the last line of R150 (R167) -/
  | internalFault
  /-- nothing: no `READ` is in progress, or a real fetch waits (R134) -/
  | wait
deriving DecidableEq, Repr

/-- The reader's next micro-operation (R150, R165). -/
def microOp (s : State) : Micro :=
  match s.rs with
  | .idle => .wait
  | .inspect =>
    match judge s.pend with
    | .short => .run .rdPopshort
    | .accept => .run .rdAccept
    | .bad => .run .rdPopbad
    | .needMore => .run .rdNeedmore
  | .fetch .decide => .run .rdFetch
  | .fetch (.wait _) => if rxReady s then .wait else .run .rdFetch
  | .fetch (.byte b) => .run (.rdByte b)
  | .fetch .fail => .run .rdFail
  | .nodata a => .run (.rdNodata a)
  | .finish =>
    if 0 < s.corr.length + s.pend.length then .run .rdFlush
    else if s.eosr then .run .rdNull
    else .internalFault

/-- Whether an offered command is accepted now (R190, R254): `READ` by the reader, every other command by the
system line. -/
def accepted (i : Instr) (s : State) : Bool := if i = .read then readReady s else sysReady s

/-- The data-in bytes the host supplies for an accepted command (R196): those of an `ENC` that is not refused
and of a `DEC`, and none for anything else (log entry 20). -/
def suppliedData (i : Instr) (data : List Byte) : List Byte :=
  match i with
  | .enc _ _ len => if len.toNat ≤ Config.maxPayload then data else []
  | .dec _ => data
  | .nop | .read | .close | .rdcr _ | .wrcr _ _ | .reserved _ => []
  | .rdAhead | .rdPopshort | .rdAccept | .rdPopbad | .rdNeedmore | .rdFetch | .rdByte _ | .rdNodata _ => []
  | .rdFlush | .rdNull | .rdFail | .rdOvf | .chkClr | .chkAcc _ | .tmrTick | .rxDeposit _ _ | .frame _ _ _ => []

/-- The state in which an accepted command of the host script runs: the command has left the port and its data
bytes are on the data-in stream. -/
def acceptCommand (c : HostCmd) (rest : List HostCmd) (s : State) : State :=
  { s with hostQ := rest, hdIn := s.hdIn ++ suppliedData (decodeCommand c.word) c.data }

/-- The host's turn on the command port: the next command runs when it is accepted, else it waits on the port
(R190, 93 I8). -/
def hostTurn (s : State) : Out :=
  match s.hostQ with
  | [] => .next s
  | c :: rest =>
    if accepted (decodeCommand c.word) s then exec (decodeCommand c.word) (acceptCommand c rest s)
    else .next s

/-- The system line's turn: a waiting command tries again (R141, R196). -/
def sysTurn (s : State) : Out :=
  match s.sysWait with
  | none => .next s
  | some (.encData src dst len) => exec (.enc src dst len) { s with sysWait := none }
  | some (.decData len) => exec (.dec len) { s with sysWait := none }
  | some .closeAck =>
    match s.closeAns with
    | some a => .next (closeRespond a { s with sysWait := none })
    | none => .next s

/-- The reader's turn: one micro-step (R54). -/
def readerTurn (s : State) : Out :=
  match microOp s with
  | .run i => exec i s
  | .internalFault => .next (internalFault s)
  | .wait => .next s

/-- The transport's turn (R131, R84, R85): it offers the head of the link script. A result that is not taken
stays at the head (93 I10), and `EOS` stays also when it is taken (R84, R137, log entry 29). A pause is silence: an
untimed fetch that waits discards it (R137, log entry 16). -/
def transportTurn (s : State) : Out :=
  match s.linkQ with
  | [] => .next s
  | .deposit kind data :: rest =>
    if rxReady s then exec (.rxDeposit kind data) { s with linkQ := rest } else .next s
  | .eos :: _ => exec (.rxDeposit .eos 0) s
  | .gap :: rest =>
    if s.rs = .fetch (.wait .untimed) ∧ rxReady s then .next { s with linkQ := rest } else .next s
  | .frame f :: rest => exec (.frame f.src f.dst f.payload) { s with linkQ := rest }

/-- This tick ends a timed wait: it brings `GAPCNT` to `TSNAP` (R135). -/
def timesOut (s : State) : Bool :=
  s.rs = .fetch (.wait .timed) && rxReady s && s.gapcnt + 1 = s.tsnap

/-- The link script without the pause at its head. -/
def dropGap : List LinkItem → List LinkItem
  | [] => []
  | .gap :: rest => rest
  | .deposit kind data :: rest => .deposit kind data :: rest
  | .eos :: rest => .eos :: rest
  | .frame f :: rest => .frame f :: rest

/-- The timer's turn: a `tick` strobe (R135). The fetch it answers `Timeout` consumes the pause it met (R84,
R137, log entry 16). -/
def tickTurn (s : State) : Out :=
  exec .tmrTick (if timesOut s then { s with linkQ := dropGap s.linkQ } else s)

/-- `rst` (R240, R241): every piece of the block's state takes its reset value, whatever is in progress; the
parameters and the outside world stay (log entry 22). Data-in bytes already given for an `ENC` or `DEC` that
waited for more stay on data-in: the spec does not say (DESIGN CHOICE, log entry 30). -/
def resetBlock (s : State) : State :=
  { State.reset with
    params := s.params, hostQ := s.hostQ, hdIn := s.hdIn, linkQ := s.linkQ, closeAns := s.closeAns
    xpClose := s.xpClose, sched := s.sched, sysLog := s.sysLog, rdrLog := s.rdrLog }

/-- The host takes the system response (R223, R254). -/
def takeSysResponse (s : State) : State := { s with sr := none, sysLog := s.sysLog ++ s.sr.toList }

/-- The host takes the reader response (R223, R254). -/
def takeRdrResponse (s : State) : State := { s with rr := none, rdrLog := s.rdrLog ++ s.rr.toList }

/-- One turn. -/
def takeTurn (t : Turn) (s : State) : Out :=
  match t with
  | .host => hostTurn s
  | .hostData bytes => .next { s with hdIn := s.hdIn ++ bytes }
  | .sys => sysTurn s
  | .rsy => readerTurn s
  | .xport => transportTurn s
  | .tick => tickTurn s
  | .closeAck a => .next { s with closeAns := some a }
  | .takeSys => .next (takeSysResponse s)
  | .takeRdr => .next (takeRdrResponse s)
  | .rst => .next (resetBlock s)

/-- A waiting system command has what it waits for. -/
def sysCompletable (s : State) : Bool :=
  match s.sysWait with
  | none => false
  | some (.encData _ _ len) => len.toNat ≤ s.hdIn.length
  | some (.decData len) => len.toNat ≤ s.hdIn.length
  | some .closeAck => s.closeAns.isSome

/-- Whose turn it is while a real fetch waits with nothing in the slot: the transport's when the link script
offers something or an untimed wait meets a pause, the timer's when a timed wait meets silence, and the reader's,
who goes on waiting, when an untimed wait meets the end of the script (R137; R84: that fetch never completes). -/
def waitingTurn (m : FetchMode) (s : State) : Turn :=
  match s.linkQ, m with
  | .deposit _ _ :: _, _ => .xport
  | .eos :: _, _ => .xport
  | .frame _ :: _, _ => .xport
  | .gap :: _, .untimed => .xport
  | .gap :: _, .timed => .tick
  | [], .timed => .tick
  | [], .untimed => .rsy

/-- Whose turn it is when the schedule says nothing (log entry 2): responses are taken, a system command that
can finish does, the reader runs, and the next host command comes when no command before it still has to answer:
no `READ` is in progress and no system command waits. With it a pair of scripts has the meaning R84 and R137
give it. -/
def defaultTurn (s : State) : Turn :=
  if s.rr.isSome then .takeRdr
  else if s.sr.isSome then .takeSys
  else if sysCompletable s then .sys
  else
    match microOp s with
    | .run _ => .rsy
    | .internalFault => .rsy
    | .wait =>
      match s.rs with
      | .idle => if s.sysWait.isSome then .sys else .host
      | .fetch (.wait m) => waitingTurn m s
      | .fetch .decide | .fetch (.byte _) | .fetch .fail => .rsy
      | .inspect | .nodata _ | .finish => .rsy

/-- Whose turn it is. -/
def nextTurn (s : State) : Turn := s.sched.headD (defaultTurn s)

/-- The schedule moves on by one turn. -/
def popTurn (s : State) : State := { s with sched := s.sched.tail }

/-- An operation placed where the next step takes it (log entries 4 and 19): a command at the head of the host
script, with the responses before it taken; an ingress transfer or a frame at the head of the link script. -/
def placeTransfer (t : Transfer) (s : State) : State :=
  match t with
  | .command w =>
    let u := takeRdrResponse (takeSysResponse s)
    { u with hostQ := { word := w, data := [] } :: u.hostQ, sched := .host :: u.sched }
  | .ingress bits =>
    { s with
      linkQ := .deposit (RxKind.ofCode (bits.extractLsb' 8 2)) (bits.extractLsb' 0 8) :: s.linkQ
      sched := .xport :: s.sched }
  | .wire bytes =>
    match decodeWire bytes with
    | .ok (.frame src dst payload, _) =>
      { s with
        linkQ := .frame { src := src, dst := dst, payload := payload } :: s.linkQ
        sched := .xport :: s.sched }
    | _ => s

end Sys2Proof.Machine
end

