-- ==== Sys2Proof/Machine/Step.lean ====
section
/-! DEFINITION. One step of the machine: one turn of one agent. -/

namespace Sys2Proof.Machine

/-- One step: the next turn is taken off the schedule and made. -/
def step (s : State) : Host.Outcome State Fault Refusal := takeTurn (nextTurn s) (popTurn s)

/-- `s` with the operation of a table word placed so that the very next step runs it. -/
def State.withFetchWord (s : State) (nbits w : Nat) : State := placeTransfer (tableTransfer nbits w) s

end Sys2Proof.Machine
end

