-- ==== Sys2Proof/Safety.lean ====
section
/-! DEFINITION. What the claims say of a run: the invariant of the block's state (R40, R152, R167, R169, R171),
the byte stream that a step conserves (R57), and a run of ticks (R135). -/

namespace Sys2Proof.Machine

/-- The reader is in a real fetch or holds its answer (R134, R157). -/
def FetchPhase.real : FetchPhase → Bool
  | .decide => false
  | .wait _ => true
  | .byte _ => true
  | .fail => true

/-- The invariant: holds at reset and every step keeps it. Each field names the rule it is drawn from. -/
structure Inv (s : State) : Prop where
  /-- R171, R40 (c) -/
  pend_bound : s.pend.length ≤ Config.pendCap
  /-- R171: a fetch is made only while a byte still fits -/
  fetch_bound : ∀ p, s.rs = .fetch p → s.pend.length < Config.pendCap
  /-- R21 -/
  corr_bound : ∀ c, s.params.corrCap = some c → s.corr.length ≤ c
  /-- R22 -/
  pres_bound : ∀ f, s.pres = some f → f.payload.length ≤ Config.maxPayload
  /-- R152: a held frame excludes both sticky faults, and they exclude each other -/
  one_of_three : (s.pres ≠ none → s.failed = false ∧ s.ovf = false) ∧ (s.failed = true → s.ovf = false)
  /-- R40 (a), R168 -/
  idle_corr : s.rs = .idle → s.failed = false → s.ovf = false → s.corr = []
  /-- R40 (b) -/
  pres_corr : s.pres ≠ none → s.corr = []
  /-- R152, R254: a `READ` in progress has passed its start checks and has not answered -/
  scan_clear : s.rs ≠ .idle → s.pres = none ∧ s.failed = false ∧ s.ovf = false ∧ s.rr = none
  /-- R157, R139: a real fetch is made only with these flags clear -/
  real_fetch : ∀ p, s.rs = .fetch p → p.real = true → s.nomore = false ∧ s.eosr = false ∧ s.susp = false
  /-- R133, R135: a timed wait has bytes in `PEND` and has not reached its end -/
  timed_wait : s.rs = .fetch (.wait .timed) → s.pend ≠ [] ∧ s.gapcnt.toNat < s.tsnap.toNat
  /-- R167: a `Timeout` is answered only while `PEND` is not empty -/
  timeout_pend : s.rs = .nodata .timeout → s.pend ≠ []
  /-- R167: after a no-data event something is buffered or the stream has ended -/
  nomore_found : s.rs ≠ .idle → s.nomore = true →
    s.susp = true ∧ (s.eosr = true ∨ s.corr ≠ [] ∨ s.pend ≠ [])
  /-- R167 -/
  finish_nomore : s.rs = .finish → s.nomore = true
  /-- R169: before a no-data event an empty `PEND` means an empty `CORR` -/
  first_byte : s.rs ≠ .idle → s.nomore = false → s.pend = [] → s.corr = []
  /-- R190: a system command in progress has not answered -/
  sys_line : s.sysWait ≠ none → s.sr = none

/-- The bytes of an element's raw view (R39). -/
def Element.bytes : Element → List Byte
  | .null => []
  | .valid _ _ _ raw => raw
  | .invalid raw => raw

/-- The bytes a reader response returns. -/
def RdrResp.bytes (r : RdrResp) : List Byte :=
  match r.elem with
  | none => []
  | some e => e.bytes

/-- `OUT` of R57: the bytes of every element returned so far, taken by the host or presented to it. -/
def outBytes (s : State) : List Byte :=
  s.rdrLog.flatMap RdrResp.bytes ++ s.rr.toList.flatMap RdrResp.bytes

/-- `wire(PRES)` of R57. -/
def heldBytes (p : Option Frame) : List Byte :=
  match p with
  | none => []
  | some f => wireBytes f

/-- The byte between `RD.FETCH` and `RD.BYTE`. -/
def latchedBytes (r : ReaderState) : List Byte :=
  match r with
  | .fetch (.byte b) => [b]
  | .fetch .decide | .fetch (.wait _) | .fetch .fail => []
  | .idle | .inspect | .nodata _ | .finish => []

/-- The byte in the slot. -/
def slotBytes (x : Slot) : List Byte :=
  match x with
  | .byte b => [b]
  | .empty | .eos | .err => []

/-- The bytes a link item stands for (R81, R85). -/
def LinkItem.bytes : LinkItem → List Byte
  | .deposit .byte b => [b]
  | .deposit .eos _ | .deposit .err _ | .deposit .reserved _ => []
  | .eos | .gap => []
  | .frame f => (encodeFrame f).getD []

/-- `IN` of R57 after the bytes it has become: `OUT ++ wire(PRES) ++ CORR ++ PEND`, with the byte being
fetched. -/
def consumedBytes (s : State) : List Byte :=
  outBytes s ++ heldBytes s.pres ++ s.corr ++ s.pend ++ latchedBytes s.rs

/-- The bytes still to be consumed: the slot's, then the link script's. -/
def comingBytes (s : State) : List Byte := slotBytes s.slot ++ s.linkQ.flatMap LinkItem.bytes

/-- The whole stream, consumed and coming. -/
def stream (s : State) : List Byte := consumedBytes s ++ comingBytes s

/-- What a turn or an operation leads to; a stop leaves the state as it was (no turn stops). -/
def after (o : Out) (s : State) : State :=
  match o with
  | .next t => t
  | .fault _ => s
  | .refused _ => s

/-- `k` ticks, one after the other. -/
def ticks : Nat → State → State
  | 0, s => s
  | k + 1, s => ticks k (after (exec .tmrTick s) s)

/-- `k` micro-steps of the reader, one after the other. -/
def microSteps : Nat → State → State
  | 0, s => s
  | k + 1, s => microSteps k (after (readerTurn s) s)

/-- The state the reader owns (R20 to R31, R39) and the timeout it reads. -/
structure ReaderView where
  pend : List Byte
  corr : List Byte
  pres : Option Frame
  flags : List Bool
  rs : ReaderState
  slot : Slot
  timer : Half × Half × Half
  elem : ElemKind × Byte × Byte × Byte × List Byte
  rr : Option RdrResp
deriving DecidableEq, Repr

/-- The reader's part of a state. -/
def readerView (s : State) : ReaderView where
  pend := s.pend
  corr := s.corr
  pres := s.pres
  flags := [s.eosr, s.susp, s.nomore, s.failed, s.ovf, s.closed]
  rs := s.rs
  slot := s.slot
  timer := (s.gapcnt, s.tsnap, s.cr0)
  elem := (s.eKind, s.eSrc, s.eDst, s.ePlen, s.eRaw)
  rr := s.rr

end Sys2Proof.Machine
end

