-- ==== Sys2Proof/Certificates/Slice0/Obligations.lean ====
section
/-! DEFINITION. The statements about the model, drawn from the numbered rules of spec/. A statement about an
operation gives its whole next state, so it is its result, its completion and its frame at once. -/

open Sys2Proof Sys2Proof.Machine

/-! ## Encodings (30_encoding.md) -/

/-- Decoding the encoding of a well-formed operation gives it back, with every operand at every value (R70,
R77, R81). Operations of format U have no encoding. -/
def Obligations.DecodeOfEncodeIsTheOperation : Prop :=
  ∀ (i : Instr) (t : Transfer), i.wf = true → encode i = some t → decode t = .ok i

/-- The other direction for the wire format: bytes that decode are the encoding of what they decode to, so a
wire frame has one meaning (R70, R71, R73). -/
def Obligations.WireBytesThatDecodeEncodeBack : Prop :=
  ∀ (bytes : List Byte) (i : Instr), decode (.wire bytes) = .ok i →
    i.wf = true ∧ encode i = some (.wire bytes)

/-- The size of a frame is learnt from its second byte: a frame followed by anything decodes to the frame and
leaves exactly what follows (R72). -/
def Obligations.WireFrameIsCutAtItsLength : Prop :=
  ∀ (f : Frame) (rest : List Byte), f.payload.length ≤ 253 →
    decodeWire (wireBytes f ++ rest) = .ok (.frame f.src f.dst f.payload, rest)

/-- The command words of R77 written out bit by bit decode to their commands, with the operands each uses
(R76). -/
def Obligations.CommandWordsDecode : Prop :=
  ∀ (a b : Byte) (len : BitVec 9) (val : Half),
    decode (.command { cmd := 0b00000000, a := a, b := b, len := len, val := val }) = .ok .nop ∧
    decode (.command { cmd := 0b00010000, a := a, b := b, len := len, val := val }) = .ok (.enc a b len) ∧
    decode (.command { cmd := 0b00100000, a := a, b := b, len := len, val := val }) = .ok (.dec len) ∧
    decode (.command { cmd := 0b00110000, a := a, b := b, len := len, val := val }) = .ok .read ∧
    decode (.command { cmd := 0b01000000, a := a, b := b, len := len, val := val }) = .ok .close ∧
    decode (.command { cmd := 0b01010001, a := a, b := b, len := len, val := val }) = .ok (.rdcr 1) ∧
    decode (.command { cmd := 0b01100000, a := a, b := b, len := len, val := val }) = .ok (.wrcr 0 val)

/-- The words of R78, and no others, decode to the reserved command; every command word decodes, and to a
well-formed operation. -/
def Obligations.ReservedWordsAreExactlyThose : Prop :=
  ∀ w : CmdWord,
    (decodeCommand w = .reserved w.cmd ↔
      7 ≤ w.cmd.toNat / 16 ∨ (w.cmd.toNat / 16 ≤ 4 ∧ w.cmd.toNat % 16 ≠ 0) ∨
      (w.cmd.toNat / 16 = 5 ∧ 4 ≤ w.cmd.toNat % 16) ∨ (w.cmd.toNat / 16 = 6 ∧ w.cmd.toNat % 16 ≠ 0)) ∧
    decode (.command w) = .ok (decodeCommand w) ∧ (decodeCommand w).wf = true

/-! ## The checksum unit (40_checksum.md) -/

/-- The checksum unit: `CHK.CLR`, `CHK.ACC v`, and that after `CHK.CLR` and `CHK.ACC` of each byte of a sequence, in
any order, `CHKACC` is its `XOR8`; nothing else is written (R101, R102). -/
def Obligations.ChecksumUnitComputesXor8 : Prop :=
  (∀ s : State, exec .chkClr s = .next { s with chkacc := 0x00 }) ∧
  (∀ (s : State) (v : Byte), exec (.chkAcc v) s = .next { s with chkacc := s.chkacc ^^^ v }) ∧
  (∀ (s : State) (bytes order : List Byte), order.Perm bytes →
    order.foldl (fun t v => after (exec (.chkAcc v) t) t) (after (exec .chkClr s) s) =
      { s with chkacc := xor8 bytes })

/-- The two forms of the checksum predicate are one (R103). -/
def Obligations.ChecksumFormsAgree : Prop :=
  ∀ (s : List Byte) (h : s ≠ []), xor8 s.dropLast = s.getLast h ↔ xor8 s = 0x00

/-- The laws of R104: (a) exclusive-or of bytes is associative and commutative, has identity 0 and each byte is its
own inverse, (b) one changed byte always shows, (c) the same change in two bytes never does, (d) neither does the
order of the bytes. -/
def Obligations.WhatTheChecksumDetects : Prop :=
  (∀ u v w : Byte, (u ^^^ v) ^^^ w = u ^^^ (v ^^^ w) ∧ u ^^^ v = v ^^^ u ∧ u ^^^ 0x00 = u ∧ u ^^^ u = 0x00) ∧
  (∀ (s : List Byte) (i : Nat) (v : Byte) (h : i < s.length), s[i] ≠ v → xor8 (s.set i v) ≠ xor8 s) ∧
  (∀ (s : List Byte) (i j : Nat) (m : Byte) (hi : i < s.length) (hj : j < s.length), i ≠ j →
    xor8 ((s.set i (s[i] ^^^ m)).set j (s[j] ^^^ m)) = xor8 s) ∧
  (∀ s t : List Byte, s.Perm t → xor8 s = xor8 t)

/-! ## The codec (41_codec.md) -/

/-- `ENC` with its payload on data-in: the wire bytes of R110, byte by byte, in the response and in `W_BUF`,
the scratch registers of the operation, and nothing else (that the bytes are taken together and that the sum stays in
one `CHKACC` is the model's choice, log entries 14 and 7). -/
def Obligations.EncAnswersTheWireBytes : Prop :=
  ∀ (s : State) (src dst : Byte) (len : BitVec 9), len.toNat ≤ 253 → len.toNat ≤ s.hdIn.length →
    let p := len.toNat
    let payload := s.hdIn.take p
    let before := src :: BitVec.ofNat 8 (p + 2) :: dst :: payload
    let wire := before ++ [xor8 before]
    exec (.enc src dst len) s = .next { s with
      hdIn := s.hdIn.drop p
      fSrc := src, fDst := dst, fPlen := BitVec.ofNat 8 p, fPay := payload
      chkacc := xor8 before, wN := BitVec.ofNat 9 (p + 4), wBuf := wire
      sr := some { status := .ok, body := .wire (BitVec.ofNat 9 (p + 4)) wire } }

/-- `ENC` of more than 253 bytes: the status, and no other change; no byte leaves data-in (R111). -/
def Obligations.EncRefusesALongPayload : Prop :=
  ∀ (s : State) (src dst : Byte) (len : BitVec 9), 253 < len.toNat →
    exec (.enc src dst len) s = .next { s with sr := some { status := .encRange, body := .none } }

/-- `ENC` and `DEC` with too few bytes on data-in wait and answer nothing, and take no byte yet (R196; that the
bytes are taken together is the model's, log entry 14). -/
def Obligations.EncAndDecWaitForTheirBytes : Prop :=
  ∀ (s : State) (src dst : Byte) (len : BitVec 9), s.hdIn.length < len.toNat →
    (len.toNat ≤ 253 → exec (.enc src dst len) s = .next { s with sysWait := some (.encData src dst len) }) ∧
    exec (.dec len) s = .next { s with sysWait := some (.decData len) }

/-- `DEC` of a bad sequence: the first failing check of R112, in the order of R113, decides the status (R211,
R212, R213). The operand has left data-in; only the scratch `W_N`, `W_BUF`, `CHKACC` changed besides (log
entries 7 and 8 for the scratch registers). -/
def Obligations.DecRaisesTheFirstFailingCheck : Prop :=
  ∀ (s : State) (len : BitVec 9), len.toNat ≤ s.hdIn.length →
    let b := s.hdIn.take len.toNat
    let t := { s with hdIn := s.hdIn.drop len.toNat, wN := len, wBuf := b }
    (len.toNat < 5 →
      exec (.dec len) s = .next { t with chkacc := 0, sr := some { status := .tooShort, body := .none } }) ∧
    (∀ l, b[1]? = some l → 5 ≤ len.toNat → (l.toNat : Int) - 2 + 4 ≠ (len.toNat : Int) →
      exec (.dec len) s = .next { t with chkacc := 0, sr := some { status := .lengthMismatch, body := .none } }) ∧
    (∀ l c, b[1]? = some l → b[len.toNat - 1]? = some c → 5 ≤ len.toNat →
      (l.toNat : Int) - 2 + 4 = (len.toNat : Int) → xor8 (b.take (len.toNat - 1)) ≠ c →
      exec (.dec len) s = .next { t with
        chkacc := xor8 (b.take (len.toNat - 1)), sr := some { status := .checksumMismatch, body := .none } })

/-- `DEC` of a good sequence returns its frame (R112): every field at its index, and nothing else changed but
the scratch registers (the sum left in `CHKACC` is the model's, log entry 7). -/
def Obligations.DecReturnsTheFrame : Prop :=
  ∀ (s : State) (len : BitVec 9) (src l dst c : Byte) (payload rest : List Byte),
    s.hdIn = src :: l :: dst :: (payload ++ c :: rest) → len.toNat = payload.length + 4 → 5 ≤ len.toNat →
    (l.toNat : Int) - 2 + 4 = (len.toNat : Int) → xor8 (src :: l :: dst :: payload) = c →
    exec (.dec len) s = .next { s with
      hdIn := rest, wN := len, wBuf := src :: l :: dst :: (payload ++ [c]), chkacc := c
      fSrc := src, fDst := dst, fPlen := BitVec.ofNat 8 payload.length, fPay := payload
      sr := some { status := .ok, body := .frame src dst (BitVec.ofNat 8 payload.length) payload } }

/-- The round trip of R114: for 1 to 253 payload bytes decoding undoes encoding, for an empty payload the
decoder answers `TooShort`, and encoding undoes every successful decoding. -/
def Obligations.CodecRoundTrip : Prop :=
  (∀ f : Frame, 1 ≤ f.payload.length → f.payload.length ≤ 253 →
    ∃ b, encodeFrame f = some b ∧ decodeFrame b = .ok f) ∧
  (∀ f : Frame, f.payload = [] → ∃ b, encodeFrame f = some b ∧ decodeFrame b = .error .tooShort) ∧
  (∀ (b : List Byte) (f : Frame), decodeFrame b = .ok f → encodeFrame f = some b)

/-- The round trip through the two commands: whatever `ENC` puts on data-out, `DEC` given those bytes answers
the same triple, in every state of the block (R110, R112, R114). -/
def Obligations.RoundTripThroughTheCommands : Prop :=
  ∀ (s u : State) (src dst : Byte) (len : BitVec 9) (rest : List Byte),
    1 ≤ len.toNat → len.toNat ≤ 253 → len.toNat ≤ s.hdIn.length →
    ∃ (t : State) (n : BitVec 9) (wire : List Byte),
      exec (.enc src dst len) s = .next t ∧ t.sr = some { status := .ok, body := .wire n wire } ∧
      (u.hdIn = wire ++ rest → ∃ v, exec (.dec n) u = .next v ∧ v.hdIn = rest ∧
        v.sr = some { status := .ok,
                      body := .frame src dst (BitVec.ofNat 8 len.toNat) (s.hdIn.take len.toNat) })

/-- Every encoded frame sums to 0 and has the size of its payload plus 4 (R115, R70). -/
def Obligations.EncodedFramesSumToZero : Prop :=
  ∀ (s : State) (src dst : Byte) (len : BitVec 9), len.toNat ≤ 253 → len.toNat ≤ s.hdIn.length →
    ∃ (t : State) (n : BitVec 9) (wire : List Byte),
      exec (.enc src dst len) s = .next t ∧ t.sr = some { status := .ok, body := .wire n wire } ∧
      xor8 wire = 0x00 ∧ wire.length = len.toNat + 4 ∧ n.toNat = wire.length

/-- A single flipped bit in a sequence that decodes: in the length byte it is a length mismatch, anywhere else
a checksum mismatch, always (R116). -/
def Obligations.SingleBitErrorsAreDetected : Prop :=
  ∀ (b : List Byte) (f : Frame) (i k : Nat) (h : i < b.length), decodeFrame b = .ok f → k < 8 →
    decodeFrame (b.set i (b[i] ^^^ ((1 : Byte) <<< k))) =
      .error (if i = 1 then .lengthMismatch else .checksumMismatch)

/-- The two floors (R117): nothing under 5 bytes decodes, and the scanner accepts every frame of the wire
format at the front of `PEND`, the 4-byte one too. -/
def Obligations.TheTwoFloors : Prop :=
  (∀ b : List Byte, b.length < 5 → decodeFrame b = .error .tooShort) ∧
  (∀ (f : Frame) (rest : List Byte), f.payload.length ≤ 253 → judge (wireBytes f ++ rest) = .accept)

/-! ## System commands (44_system.md) -/

/-- `NOP` answers `ST_OK` in every state and changes nothing (R191). -/
def Obligations.NopAnswersOk : Prop :=
  ∀ s : State, exec .nop s = .next { s with sr := some { status := .ok, body := .none } }

/-- `RDCR n` answers the register and changes nothing; there is no register beyond `CR3` (R192). -/
def Obligations.RdcrAnswersTheRegister : Prop :=
  ∀ s : State,
    exec (.rdcr 0) s = .next { s with sr := some { status := .ok, body := .value s.cr0 } } ∧
    exec (.rdcr 1) s = .next { s with sr := some { status := .ok, body := .value (statusWord s) } } ∧
    exec (.rdcr 2) s = .next { s with sr := some { status := .ok, body := .value (pendn s) } } ∧
    exec (.rdcr 3) s = .next { s with sr := some { status := .ok, body := .value (corrn s) } } ∧
    ∀ n : BitVec 4, 3 < n.toNat →
      exec (.rdcr n) s = .next { s with sr := some { status := .badCommand, body := .none } }

/-- `CR1` STATUS (R34): its fields bit by bit, each a live copy of the state of the same name, bits 10:8 the code that
R28 gives each value of `RS`; a write is refused; it is 0 at reset. That the code is one and the same in every phase of
a fetch (R157) and for either answer of a no-data event is the model's reading, log entry 9. -/
def Obligations.StatusWordFields : Prop :=
  (∀ s : State,
    (statusWord s).getLsbD 0 = s.eosr ∧ (statusWord s).getLsbD 1 = s.susp ∧
    (statusWord s).getLsbD 2 = s.pres.isSome ∧ (statusWord s).getLsbD 3 = s.failed ∧
    (statusWord s).getLsbD 4 = s.ovf ∧ (statusWord s).getLsbD 5 = s.closed ∧
    (statusWord s).getLsbD 6 = s.nomore ∧ (statusWord s).getLsbD 7 = decide (s.slot ≠ .empty) ∧
    (statusWord s).extractLsb' 8 3 = s.rs.code ∧ (statusWord s).extractLsb' 11 5 = 0) ∧
  (∀ s : State,
    (s.rs = .idle → (statusWord s).extractLsb' 8 3 = 0) ∧
    (s.rs = .inspect → (statusWord s).extractLsb' 8 3 = 1) ∧
    (∀ p, s.rs = .fetch p → (statusWord s).extractLsb' 8 3 = 2) ∧
    (∀ a, s.rs = .nodata a → (statusWord s).extractLsb' 8 3 = 3) ∧
    (s.rs = .finish → (statusWord s).extractLsb' 8 3 = 4)) ∧
  (∀ (s : State) (v : Half),
    exec (.rdcr 1) s = .next { s with sr := some { status := .ok, body := .value (statusWord s) } } ∧
    exec (.wrcr 1 v) s = .next { s with sr := some { status := .badCommand, body := .none } }) ∧
  statusWord State.reset = 0x0000

/-- `CR2` PENDN and `CR3` CORRN (R35, R36): the lengths of the two buffers, the first for every length `PEND` can
have, the second cut at 65535; writes are refused; both are 0 at reset, and between `READ`s `CR3` is 0 unless a sticky
fault is set. -/
def Obligations.CountRegisters : Prop :=
  (∀ s : State,
    (s.pend.length ≤ 257 → ((pendn s).extractLsb' 0 9).toNat = s.pend.length) ∧ (pendn s).extractLsb' 9 7 = 0 ∧
    (corrn s).toNat = min s.corr.length 65535) ∧
  (∀ (s : State) (v : Half),
    exec (.rdcr 2) s = .next { s with sr := some { status := .ok, body := .value (pendn s) } } ∧
    exec (.rdcr 3) s = .next { s with sr := some { status := .ok, body := .value (corrn s) } } ∧
    exec (.wrcr 2 v) s = .next { s with sr := some { status := .badCommand, body := .none } } ∧
    exec (.wrcr 3 v) s = .next { s with sr := some { status := .badCommand, body := .none } }) ∧
  (pendn State.reset = 0 ∧ corrn State.reset = 0) ∧
  (∀ s : State, Inv s → s.rs = .idle → s.failed = false → s.ovf = false → corrn s = 0)

/-- `WRCR 0, v` writes the timeout and nothing else; a write to any other register is refused with no state
change (R193, R255: a wait in progress keeps `GAPCNT`, `TSNAP` and its mode). -/
def Obligations.WrcrWritesOnlyTheTimeout : Prop :=
  ∀ (s : State) (v : Half) (n : BitVec 4),
    exec (.wrcr 0 v) s = .next { s with cr0 := v, sr := some { status := .ok, body := .none } } ∧
    (n ≠ 0 → exec (.wrcr n v) s = .next { s with sr := some { status := .badCommand, body := .none } })

/-- A reserved command is answered `ST_BAD_COMMAND` on the system channel, whatever the word, also for a `READ` word
with `n ≠ 0`, and changes nothing; no data-in byte is taken (R194; the encodings are those R78 lists). -/
def Obligations.ReservedCommandsAreRefused : Prop :=
  ∀ (s : State) (w : CmdWord),
    (7 ≤ w.cmd.toNat / 16 ∨ (w.cmd.toNat / 16 ≤ 4 ∧ w.cmd.toNat % 16 ≠ 0) ∨
      (w.cmd.toNat / 16 = 5 ∧ 4 ≤ w.cmd.toNat % 16) ∨ (w.cmd.toNat / 16 = 6 ∧ w.cmd.toNat % 16 ≠ 0)) →
    exec (decodeCommand w) s = .next { s with sr := some { status := .badCommand, body := .none } }

/-- `ENC`, `DEC` and `NOP` read and write no reader state: in two states that agree on data-in and are ready for
a command they answer the same, and each leaves its own reader state alone (R190 (c), R191). -/
def Obligations.CodecAndReaderDoNotInterfere : Prop :=
  ∀ (i : Instr) (s u : State),
    ((∃ src dst len, i = .enc src dst len) ∨ (∃ len, i = .dec len) ∨ i = .nop) →
    s.hdIn = u.hdIn → sysReady s = true → sysReady u = true →
    ∃ t v, exec i s = .next t ∧ exec i u = .next v ∧
      t.sr = v.sr ∧ t.sysWait = v.sysWait ∧ t.hdIn = v.hdIn ∧
      readerView t = readerView s ∧ readerView v = readerView u

/-! ## The ingress (42_ingress.md) -/

/-- `RX.DEPOSIT` fills an empty slot of an open ingress, a reserved kind as an error; otherwise the offer is
not taken and nothing changes (R131, R143; that the turn then changes nothing is log entry 27). -/
def Obligations.DepositFillsTheEmptySlot : Prop :=
  ∀ (s : State) (data : Byte),
    (s.slot = .empty → s.closed = false →
      exec (.rxDeposit .byte data) s = .next { s with slot := .byte data } ∧
      exec (.rxDeposit .eos data) s = .next { s with slot := .eos } ∧
      exec (.rxDeposit .err data) s = .next { s with slot := .err } ∧
      exec (.rxDeposit .reserved data) s = .next { s with slot := .err }) ∧
    (∀ kind, s.slot ≠ .empty ∨ s.closed = true → exec (.rxDeposit kind data) s = .next s)

/-- `TMR.TICK` counts during a timed wait with an empty slot of an open ingress, answers `Timeout` when the
count reaches `TSNAP`, and does nothing at any other time (R134, R135, R222 (e)). -/
def Obligations.TickCountsATimedWait : Prop :=
  ∀ s : State,
    (s.rs = .fetch (.wait .timed) → s.slot = .empty → s.closed = false →
      (s.gapcnt + 1 ≠ s.tsnap → exec .tmrTick s = .next { s with gapcnt := s.gapcnt + 1 }) ∧
      (s.gapcnt + 1 = s.tsnap →
        exec .tmrTick s = .next { s with gapcnt := s.tsnap, rs := .nodata .timeout })) ∧
    (s.rs ≠ .fetch (.wait .timed) ∨ s.slot ≠ .empty ∨ s.closed = true → exec .tmrTick s = .next s)

/-- A timed wait ends in `Timeout` on exactly the tick that brings `GAPCNT` to `TSNAP`, and not before, with the
slot untouched (R135, R227). -/
def Obligations.TimedWaitEndsOnItsLastTick : Prop :=
  ∀ s : State, s.rs = .fetch (.wait .timed) → s.slot = .empty → s.closed = false →
    s.gapcnt.toNat < s.tsnap.toNat →
    (∀ k, k < s.tsnap.toNat - s.gapcnt.toNat → ticks k s = { s with gapcnt := s.gapcnt + BitVec.ofNat 16 k }) ∧
    ticks (s.tsnap.toNat - s.gapcnt.toNat) s = { s with gapcnt := s.tsnap, rs := .nodata .timeout }

/-- `CLOSE` (R141): of an open ingress, `CLOSED` and one pulse on `xp_close`, then the response the transport's result
gives, without setting `FAILED`; without an acknowledgement the command waits for it. Of a closed one it is refused,
with no state change and no second pulse (R142 (c), R219). That it answers in the same step when the acknowledgement
is there and parks in `sysWait` when it is not, that the acknowledgement stays in `closeAns`, and the pulse count
`xpClose` are the model's choice, log entry 15. -/
def Obligations.CloseClosesTheIngressOnce : Prop :=
  (∀ s : State, s.closed = false →
    let t := { s with closed := true, xpClose := s.xpClose + 1 }
    (s.closeAns = some .ok → exec .close s = .next { t with sr := some { status := .ok, body := .none } }) ∧
    (s.closeAns = some .err →
      exec .close s = .next { t with sr := some { status := .ioFailure, body := .none } }) ∧
    (s.closeAns = none → exec .close s = .next { t with sysWait := some .closeAck })) ∧
  (∀ s : State, s.closed = true →
    exec .close s = .next { s with sr := some { status := .refused, body := .none } })

/-- `FRAME` in a link script stands for the bytes `ENC` returns, in order, each a deposit (R85, R70); for more
than 253 payload bytes `ENC` returns none (R111; that the item then stands for nothing is the model's, log
entry 17). -/
def Obligations.FrameStandsForItsBytes : Prop :=
  ∀ (s : State) (src dst : Byte) (payload : List Byte),
    let before := src :: BitVec.ofNat 8 (payload.length + 2) :: dst :: payload
    (payload.length ≤ 253 → exec (.frame src dst payload) s = .next { s with
      linkQ := (before ++ [xor8 before]).map (LinkItem.deposit .byte) ++ s.linkQ }) ∧
    (253 < payload.length → exec (.frame src dst payload) s = .next s)

/-! ## The reader (43_reader.md) -/

/-- The start of a `READ` that is accepted (R150 to R152): the held frame first, then `FAILED`, then `OVF`, else
the scan begins. -/
def Obligations.ReadStarts : Prop :=
  ∀ s : State, s.rs = .idle → s.rr = none →
    (∀ f, s.pres = some f → exec .read s = exec .rdAhead s) ∧
    (s.pres = none → s.failed = true →
      exec .read s = .next { s with rr := some { status := .ioFailure, elem := none } }) ∧
    (s.pres = none → s.failed = false → s.ovf = true →
      exec .read s = .next { s with rr := some { status := .overflow, elem := none } }) ∧
    (s.pres = none → s.failed = false → s.ovf = false →
      exec .read s = .next { s with nomore := false, rs := .inspect })

/-- `RD.AHEAD` returns the held frame with its wire form and clears `PRES`; nothing else is written but the response
and `RS`, and no flag is consulted. A `READ` that starts with a held frame does this (R151). -/
def Obligations.RdAheadReturnsTheHeldFrame : Prop :=
  ∀ (s : State) (f : Frame), s.pres = some f →
    let n := BitVec.ofNat 8 f.payload.length
    let before := f.src :: BitVec.ofNat 8 (f.payload.length + 2) :: f.dst :: f.payload
    let raw := before ++ [xor8 before]
    let t := { s with
      pres := none, eKind := .valid, eSrc := f.src, eDst := f.dst, ePlen := n, eRaw := raw, rs := .idle
      rr := some { status := .ok, elem := some (.valid f.src f.dst n raw) } }
    exec .rdAhead s = .next t ∧ (s.rs = .idle → s.rr = none → exec .read s = .next t)

/-- `RD.POPSHORT` and `RD.POPBAD` move the front byte of `PEND` to the back of `CORR` (R153, R155); the second after
the checksum evaluation of its candidate (R101; that its sum is in the one `CHKACC` is the model's, log entry 7). -/
def Obligations.RejectedCandidatesLoseTheirFrontByte : Prop :=
  (∀ (s : State) (v : Byte) (rest : List Byte), s.pend = v :: rest → s.params.corrCap ≠ some s.corr.length →
    exec .rdPopshort s = .next { s with pend := rest, corr := s.corr ++ [v], rs := .inspect }) ∧
  (∀ (s : State) (v l : Byte) (rest : List Byte), s.pend = v :: l :: rest →
    4 ≤ l.toNat + 2 → l.toNat + 2 ≤ s.pend.length → s.params.corrCap ≠ some s.corr.length →
    exec .rdPopbad s = .next { s with
      chkacc := xor8 (s.pend.take (l.toNat + 2)), pend := l :: rest, corr := s.corr ++ [v], rs := .inspect })

/-- `RD.ACCEPT` (R154): the candidate leaves `PEND`; with an empty `CORR` it is the element, else `CORR` is the
element and the frame is held in `PRES`. `SUSP`, `EOSR`, `NOMORE` stay (the sum left in `CHKACC` is the model's, log
entry 7; that `F_*` and `W_*` stay after an element is the model's reading, log entry 28). -/
def Obligations.RdAcceptTakesTheCandidate : Prop :=
  ∀ (s : State) (src l dst c : Byte) (payload rest : List Byte),
    s.pend = src :: l :: dst :: (payload ++ c :: rest) → l.toNat + 2 = payload.length + 4 →
    let raw := src :: l :: dst :: (payload ++ [c])
    let n := BitVec.ofNat 8 payload.length
    let t := { s with chkacc := xor8 raw, pend := rest, rs := .idle }
    (s.corr = [] → exec .rdAccept s = .next { t with
      eKind := .valid, eSrc := src, eDst := dst, ePlen := n, eRaw := raw
      rr := some { status := .ok, elem := some (.valid src dst n raw) } }) ∧
    (s.corr ≠ [] → exec .rdAccept s = .next { t with
      corr := [], pres := some { src := src, dst := dst, payload := payload }
      eKind := .invalid, eSrc := 0, eDst := 0, ePlen := 0, eRaw := s.corr
      rr := some { status := .ok, elem := some (.invalid s.corr) } })

/-- `RD.NEEDMORE` moves to the fetch point and writes nothing else (R156); `RD.BYTE b` appends the byte and resumes
the inspection (R159). -/
def Obligations.RdNeedmoreAndRdByteResults : Prop :=
  ∀ (s : State) (b : Byte),
    exec .rdNeedmore s = .next { s with rs := .fetch .decide } ∧
    exec (.rdByte b) s = .next { s with pend := s.pend ++ [b], rs := .inspect }

/-- The inspection: in each visit to `RS_INSPECT` exactly one of R153 to R156 applies, under its own
condition. -/
def Obligations.InspectionPicksExactlyOneRule : Prop :=
  ∀ s : State, s.rs = .inspect →
    (microOp s = .run .rdPopshort ↔ ∃ a l r, s.pend = a :: l :: r ∧ l.toNat + 2 < 4) ∧
    (microOp s = .run .rdAccept ↔ ∃ a l r, s.pend = a :: l :: r ∧ 4 ≤ l.toNat + 2 ∧
      l.toNat + 2 ≤ s.pend.length ∧ xor8 (s.pend.take (l.toNat + 2)) = 0x00) ∧
    (microOp s = .run .rdPopbad ↔ ∃ a l r, s.pend = a :: l :: r ∧ 4 ≤ l.toNat + 2 ∧
      l.toNat + 2 ≤ s.pend.length ∧ xor8 (s.pend.take (l.toNat + 2)) ≠ 0x00) ∧
    (microOp s = .run .rdNeedmore ↔ s.pend.length < 2 ∨
      ∃ a l r, s.pend = a :: l :: r ∧ 4 ≤ l.toNat + 2 ∧ s.pend.length < l.toNat + 2) ∧
    (microOp s = .run .rdPopshort ∨ microOp s = .run .rdAccept ∨ microOp s = .run .rdPopbad ∨
      microOp s = .run .rdNeedmore)

/-- `RD.FETCH` at the fetch point, branches (a), (b), (c): the source is not asked (R157). -/
def Obligations.RdFetchWithoutAsking : Prop :=
  ∀ s : State, s.rs = .fetch .decide →
    (s.nomore = true → (s.params.drain = .onePass ∨ s.pend = []) →
      exec .rdFetch s = .next { s with rs := .finish }) ∧
    (s.nomore = false ∨ (s.params.drain = .fullDrain ∧ s.pend ≠ []) →
      (s.eosr = true → exec .rdFetch s = .next { s with rs := .nodata .eos }) ∧
      (s.eosr = false → s.susp = true → s.pend ≠ [] →
        exec .rdFetch s = .next { s with rs := .nodata .timeout }))

/-- `RD.FETCH`, branch (d): a real fetch clears `SUSP` and takes what the slot holds; an empty slot answers
`Fail` when the ingress is closed, else the wait begins, timed with `GAPCNT <- 0`, `TSNAP <- CR0`, or untimed
when `PEND` is empty or `CR0 = 0` (R157, R133, R134). -/
def Obligations.RdFetchAsksTheSlot : Prop :=
  ∀ s : State, s.rs = .fetch .decide → s.nomore = false ∨ (s.params.drain = .fullDrain ∧ s.pend ≠ []) →
    s.eosr = false → s.susp = false ∨ s.pend = [] →
    (∀ b, s.slot = .byte b →
      exec .rdFetch s = .next { s with susp := false, slot := .empty, rs := .fetch (.byte b) }) ∧
    (s.slot = .eos → exec .rdFetch s = .next { s with susp := false, slot := .empty, rs := .nodata .eos }) ∧
    (s.slot = .err → exec .rdFetch s = .next { s with susp := false, slot := .empty, rs := .fetch .fail }) ∧
    (s.slot = .empty → s.closed = true → exec .rdFetch s = .next { s with susp := false, rs := .fetch .fail }) ∧
    (s.slot = .empty → s.closed = false → s.pend = [] ∨ s.cr0 = 0 →
      exec .rdFetch s = .next { s with susp := false, rs := .fetch (.wait .untimed) }) ∧
    (s.slot = .empty → s.closed = false → s.pend ≠ [] → s.cr0 ≠ 0 →
      exec .rdFetch s = .next { s with
        susp := false, gapcnt := 0, tsnap := s.cr0, rs := .fetch (.wait .timed) })

/-- `RD.FETCH` inside a wait of either mode: a result in the slot first, then `CLOSED`, else the wait goes on
unchanged (R134, R140, R222 (e)). -/
def Obligations.RdFetchInAWait : Prop :=
  ∀ (s : State) (m : FetchMode), s.rs = .fetch (.wait m) →
    (∀ b, s.slot = .byte b → exec .rdFetch s = .next { s with slot := .empty, rs := .fetch (.byte b) }) ∧
    (s.slot = .eos → exec .rdFetch s = .next { s with slot := .empty, rs := .nodata .eos }) ∧
    (s.slot = .err → exec .rdFetch s = .next { s with slot := .empty, rs := .fetch .fail }) ∧
    (s.slot = .empty → s.closed = true → exec .rdFetch s = .next { s with rs := .fetch .fail }) ∧
    (s.slot = .empty → s.closed = false → exec .rdFetch s = .next s)

/-- `RD.NODATA a` (R160): the flags, and all of a `PEND` of at most 4 bytes, else its oldest byte, moved to
`CORR`, when `CORR` has room. -/
def Obligations.RdNodataMovesAllOrTheOldest : Prop :=
  ∀ (s : State) (a : NoData),
    let t := { s with eosr := s.eosr || a == NoData.eos, nomore := true, susp := true, rs := .inspect }
    (s.pend.length ≤ 4 → (∀ k, k < s.pend.length → s.params.corrCap ≠ some (s.corr.length + k)) →
      exec (.rdNodata a) s = .next { t with pend := [], corr := s.corr ++ s.pend }) ∧
    (∀ v rest, s.pend = v :: rest → 4 < s.pend.length → s.params.corrCap ≠ some s.corr.length →
      exec (.rdNodata a) s = .next { t with pend := rest, corr := s.corr ++ [v] })

/-- `RD.OVF` by itself, and a push onto a full `CORR` from each operation that pushes (R166): `OVF`, the pushed
byte lost, the rest of both buffers as they were, what the operation wrote before the push kept, and what it
would have written after it not (that `RD.POPBAD`'s sum is left in the one `CHKACC` is the model's, log entry 7). -/
def Obligations.OverflowLosesThePushedByte : Prop :=
  ∀ s : State,
    let ended := fun t : State => { t with
      ovf := true, rs := .idle, rr := some { status := .overflow, elem := none } }
    exec .rdOvf s = .next (ended s) ∧
    (∀ v rest, s.pend = v :: rest → s.params.corrCap = some s.corr.length →
      exec .rdPopshort s = .next (ended { s with pend := rest })) ∧
    (∀ v l rest, s.pend = v :: l :: rest → 4 ≤ l.toNat + 2 → l.toNat + 2 ≤ s.pend.length →
      s.params.corrCap = some s.corr.length →
      exec .rdPopbad s = .next (ended { s with
        chkacc := xor8 (s.pend.take (l.toNat + 2)), pend := l :: rest })) ∧
    (∀ a before v rest, s.pend = before ++ v :: rest → s.pend.length ≤ 4 →
      s.params.corrCap = some (s.corr.length + before.length) →
      exec (.rdNodata a) s = .next (ended { s with
        eosr := s.eosr || a == NoData.eos, nomore := true, corr := s.corr ++ before, pend := rest })) ∧
    (∀ a v rest, s.pend = v :: rest → 4 < s.pend.length → s.params.corrCap = some s.corr.length →
      exec (.rdNodata a) s = .next (ended { s with
        eosr := s.eosr || a == NoData.eos, nomore := true, pend := rest }))

/-- `RD.FLUSH`: one Invalid element of `CORR` then `PEND`, both emptied; `SUSP`, `EOSR`, `NOMORE` stay (R161).
`RD.NULL` answers Null and changes nothing but the response and `RS` (R162; `E_N = 0` is an empty `E_RAW`, log entry
25; that `F_*` and `W_*` stay after an element is the model's reading, log entry 28). -/
def Obligations.RdFlushAndRdNullResults : Prop :=
  ∀ s : State,
    exec .rdFlush s = .next { s with
      corr := [], pend := [], eKind := .invalid, eSrc := 0, eDst := 0, ePlen := 0, eRaw := s.corr ++ s.pend
      rs := .idle, rr := some { status := .ok, elem := some (.invalid (s.corr ++ s.pend)) } } ∧
    exec .rdNull s = .next { s with
      eKind := .null, eRaw := [], rs := .idle, rr := some { status := .ok, elem := some .null } }

/-- `RD.FAIL` runs when a real fetch is answered `Fail`: it sets `FAILED`, ends the `READ` with `IOFailure`, and leaves
the buffers, `PRES` and the other flags; every later `READ` raises `IOFailure` at once (R163; that the answer
stands at the fetch point is log entry 9). -/
def Obligations.RdFailIsFinal : Prop :=
  ∀ s : State,
    (s.rs = .fetch .fail → microOp s = .run .rdFail) ∧
    exec .rdFail s = .next { s with
      failed := true, rs := .idle, rr := some { status := .ioFailure, elem := none } } ∧
    (s.failed = true → s.pres = none → s.rs = .idle → s.rr = none →
      exec .read s = .next { s with rr := some { status := .ioFailure, elem := none } })

/-- A guard that fails is `InternalFault` and writes `RS` only (R52, R216): no byte to pop, no complete
candidate; that a candidate whose length byte is 0 or 1, below `MIN_FRAME`, complete or not, and a missing held
frame are treated so too is the model's, log entry 13. -/
def Obligations.FailedGuardsAreInternalFaults : Prop :=
  ∀ s : State,
    let ended := { s with rs := .idle, rr := some { status := .internal, elem := none } }
    (s.pend = [] → exec .rdPopshort s = .next ended) ∧
    (s.pend.length < 2 ∨ (∃ a l r, s.pend = a :: l :: r ∧ s.pend.length < l.toNat + 2) →
      exec .rdAccept s = .next ended ∧ exec .rdPopbad s = .next ended) ∧
    ((∃ a l r, s.pend = a :: l :: r ∧ l.toNat + 2 < 4) →
      exec .rdAccept s = .next ended ∧ exec .rdPopbad s = .next ended) ∧
    (s.pres = none → exec .rdAhead s = .next ended)

/-- For a Valid element the raw view is the frame's re-encoded wire form and the bytes that were in `PEND`, and
noise before a frame is returned first with the frame held (R170, R59). -/
def Obligations.RecognisedFramesAreReencoded : Prop :=
  ∀ s : State, microOp s = .run .rdAccept →
    ∃ (t : State) (f : Frame), exec .rdAccept s = .next t ∧ f.payload.length ≤ 253 ∧
      s.pend = wireBytes f ++ t.pend ∧ t.corr = [] ∧
      (s.corr = [] → t.pres = s.pres ∧
        t.rr = some { status := .ok,
                      elem := some (.valid f.src f.dst (BitVec.ofNat 8 f.payload.length) (wireBytes f)) }) ∧
      (s.corr ≠ [] → t.pres = some f ∧ t.rr = some { status := .ok, elem := some (.invalid s.corr) })

/-! ## The machine -/

/-- The four turns of the host. A `READ` is accepted exactly when none is in progress and the last reader response has
been taken, every other command, during a `READ` too, exactly when no system command waits and the last system response
has been taken (R190 (a), (b), R254, log entry 26). The data bytes supplied with an accepted command are those of an
`ENC` of at most 253 bytes and of a `DEC`, and none for any other (R196, R111, R194, log entry 20). On the command
port: when the next command decodes to `i` and is accepted, the step
is `exec` of `i` in the state with the turn and the command taken off and the command's data bytes on data-in; a
command that is not accepted waits, and with no command only the turn is taken off (R190, R254). On data-in the bytes
arrive behind those already there (R195, R196). A response is taken: it leaves its channel and the record of
responses taken has it last (R223, R254). Turns, supplied data, acceptance and the record are log entries 1, 3, 20,
26, 27. -/
def Obligations.StepRunsTheHostCommand : Prop :=
  ∀ s : State,
    let u := { s with sched := s.sched.tail }
    (accepted .read s = true ↔ s.rs = .idle ∧ s.rr = none) ∧
    (∀ i, i ≠ .read → (accepted i s = true ↔ s.sr = none ∧ s.sysWait = none)) ∧
    (∀ src dst len data, suppliedData (.enc src dst len) data = if len.toNat ≤ 253 then data else []) ∧
    (∀ len data, suppliedData (.dec len) data = data) ∧
    (∀ i data, (∀ src dst len, i ≠ .enc src dst len) → (∀ len, i ≠ .dec len) → suppliedData i data = []) ∧
    (∀ c rest i, nextTurn s = .host → s.hostQ = c :: rest → decode (.command c.word) = .ok i →
      (accepted i s = true →
        step s = exec i { u with hostQ := rest, hdIn := s.hdIn ++ suppliedData i c.data }) ∧
      (accepted i s = false → step s = .next u)) ∧
    (nextTurn s = .host → s.hostQ = [] → step s = .next u) ∧
    (∀ bytes, nextTurn s = .hostData bytes → step s = .next { u with hdIn := s.hdIn ++ bytes }) ∧
    (nextTurn s = .takeSys →
      (∀ r, s.sr = some r → step s = .next { u with sr := none, sysLog := s.sysLog ++ [r] }) ∧
      (s.sr = none → step s = .next u)) ∧
    (nextTurn s = .takeRdr →
      (∀ r, s.rr = some r → step s = .next { u with rr := none, rdrLog := s.rdrLog ++ [r] }) ∧
      (s.rr = none → step s = .next u))

/-- Which micro-operation the reader's state selects outside the inspection (R150; InspectionPicksExactlyOneRule says
it of the inspection), and what the reader's turn does with it. None when no `READ` is in progress or a real fetch
waits for a result or `CLOSED` (R134); `RD.FETCH` at the fetch point and when a waiting fetch can end (R157);
`RD.BYTE b` and `RD.FAIL` for the answers `Byte(b)` and `Fail` (R159, R163); `RD.NODATA a` for the answer `a` (R160);
at `RS_FINISH` `RD.FLUSH` exactly when something is buffered, else `RD.NULL` exactly when `EOSR` is set, else the last
line of R150 (R161, R162). The step is `exec` of the selected operation; the last line of R150 answers `InternalFault`
and writes `RS` only (R167, R216); with none only the turn is taken off (R54; turns and the phases of `RS_FETCH` are
log entries 1, 9, 27). -/
def Obligations.StepRunsTheReadersMicroOperation : Prop :=
  ∀ s : State,
    let u := { s with sched := s.sched.tail }
    (s.rs = .idle → microOp s = .wait) ∧
    (s.rs = .fetch .decide → microOp s = .run .rdFetch) ∧
    (∀ m, s.rs = .fetch (.wait m) →
      (s.slot ≠ .empty ∨ s.closed = true → microOp s = .run .rdFetch) ∧
      (s.slot = .empty → s.closed = false → microOp s = .wait)) ∧
    (∀ b, s.rs = .fetch (.byte b) → microOp s = .run (.rdByte b)) ∧
    (s.rs = .fetch .fail → microOp s = .run .rdFail) ∧
    (∀ a, s.rs = .nodata a → microOp s = .run (.rdNodata a)) ∧
    (s.rs = .finish →
      (microOp s = .run .rdFlush ↔ 0 < s.corr.length + s.pend.length) ∧
      (microOp s = .run .rdNull ↔ s.corr = [] ∧ s.pend = [] ∧ s.eosr = true) ∧
      (microOp s = .internalFault ↔ s.corr = [] ∧ s.pend = [] ∧ s.eosr = false)) ∧
    (nextTurn s = .rsy →
      (∀ i, microOp s = .run i → step s = exec i u) ∧
      (microOp s = .internalFault →
        step s = .next { u with rs := .idle, rr := some { status := .internal, elem := none } }) ∧
      (microOp s = .wait → step s = .next u))

/-- The turns of the transport, the timer and the system line. An offered result is deposited if the slot takes it and
leaves the link script, a frame is expanded, and an empty link script offers nothing (R131, R143, R84, R85). `EOS` is
deposited if the slot takes it, and stays (R84, R137; that staying is to be deposited again is the model's reading,
log entry 29). A pause is discarded by an untimed fetch that waits with an empty slot, consumed by the timed fetch
that the tick answers `Timeout`, and stays otherwise (R84, R137, log entry 16); the timer ticks (R135). The
transport's close acknowledgement becomes available (R141). A waiting `ENC` or `DEC` tries again (R196), a waiting
`CLOSE` answers with the acknowledgement, and without one goes on waiting. Turns, waiting commands and the
acknowledgement that stays are log entries 1, 14, 15, 27. -/
def Obligations.StepRunsDepositsTicksAndWaitingCommands : Prop :=
  ∀ s : State,
    let u := { s with sched := s.sched.tail }
    (∀ kind data rest, nextTurn s = .xport → s.linkQ = .deposit kind data :: rest →
      s.slot = .empty → s.closed = false →
      step s = exec (.rxDeposit kind data) { u with linkQ := rest }) ∧
    (∀ kind data rest, nextTurn s = .xport → s.linkQ = .deposit kind data :: rest →
      s.slot ≠ .empty ∨ s.closed = true →
      step s = .next u) ∧
    (∀ f rest, nextTurn s = .xport → s.linkQ = .frame f :: rest →
      step s = exec (.frame f.src f.dst f.payload) { u with linkQ := rest }) ∧
    (∀ rest, nextTurn s = .xport → s.linkQ = .eos :: rest →
      (s.slot = .empty → s.closed = false → step s = .next { u with slot := .eos }) ∧
      (s.slot ≠ .empty ∨ s.closed = true → step s = .next u)) ∧
    (∀ rest, nextTurn s = .xport → s.linkQ = .gap :: rest →
      (s.rs = .fetch (.wait .untimed) → s.slot = .empty → s.closed = false →
        step s = .next { u with linkQ := rest }) ∧
      (s.rs ≠ .fetch (.wait .untimed) ∨ s.slot ≠ .empty ∨ s.closed = true → step s = .next u)) ∧
    (nextTurn s = .xport → s.linkQ = [] → step s = .next u) ∧
    (nextTurn s = .tick →
      (∀ rest, s.linkQ = .gap :: rest → s.rs = .fetch (.wait .timed) → s.slot = .empty → s.closed = false →
        s.gapcnt + 1 = s.tsnap → step s = exec .tmrTick { u with linkQ := rest }) ∧
      (s.linkQ.head? ≠ some .gap ∨ s.rs ≠ .fetch (.wait .timed) ∨ s.slot ≠ .empty ∨ s.closed = true ∨
        s.gapcnt + 1 ≠ s.tsnap → step s = exec .tmrTick u)) ∧
    (∀ a, nextTurn s = .closeAck a → step s = .next { u with closeAns := some a }) ∧
    (∀ src dst len, nextTurn s = .sys → s.sysWait = some (.encData src dst len) →
      step s = exec (.enc src dst len) { u with sysWait := none }) ∧
    (∀ len, nextTurn s = .sys → s.sysWait = some (.decData len) →
      step s = exec (.dec len) { u with sysWait := none }) ∧
    (nextTurn s = .sys → s.sysWait = some .closeAck →
      (s.closeAns = some .ok →
        step s = .next { u with sysWait := none, sr := some { status := .ok, body := .none } }) ∧
      (s.closeAns = some .err →
        step s = .next { u with sysWait := none, sr := some { status := .ioFailure, body := .none } }) ∧
      (s.closeAns = none → step s = .next u)) ∧
    (nextTurn s = .sys → s.sysWait = none → step s = .next u)

/-- The machine never stops: every step of every state answers a next state, and none changes the parameters (log
entries 24 and 18). -/
def Obligations.EveryStepAnswersANextState : Prop :=
  ∀ s : State, ∃ t, step s = .next t ∧ t.params = s.params

/-- In the state the machine starts in, and after `rst` in any state, every piece of state has the value of R240,
whatever was in progress; the ingress is ready for a deposit and no response is offered. -/
def Obligations.ResetGivesTheTableValues : Prop :=
  let table := fun u : State =>
    u.pend = [] ∧ u.corr = [] ∧ u.pres = none ∧
    u.eosr = false ∧ u.susp = false ∧ u.nomore = false ∧ u.failed = false ∧ u.ovf = false ∧ u.closed = false ∧
    u.rs = .idle ∧ u.slot = .empty ∧ u.gapcnt = 0 ∧ u.tsnap = 50 ∧ u.chkacc = 0 ∧ u.cr0 = 50 ∧
    u.sr = none ∧ u.rr = none ∧ u.sysWait = none ∧ rxReady u = true
  table State.reset ∧ ∀ s : State, nextTurn s = .rst → ∃ t, step s = .next t ∧ table t

/-- The invariant holds at reset. -/
def Obligations.InvariantAtReset : Prop := Inv State.reset

/-- Every step, of any agent, keeps the invariant (R40, R152, R167, R169, R171). -/
def Obligations.InvariantKeptByEveryStep : Prop :=
  ∀ s t : State, Inv s → step s = .next t → Inv t

/-- The ordering law of R57: a step that is not `rst` and does not overflow neither drops, duplicates nor
reorders a byte of the stream, from the link script through the slot, `PEND`, `CORR` and `PRES` to the elements
returned. -/
def Obligations.EveryStepConservesTheStream : Prop :=
  ∀ s t : State, Inv s → step s = .next t → nextTurn s ≠ .rst → t.ovf = s.ovf → stream t = stream s

/-- No operation but the `RD.*` micro-operations of a `READ`, and reset, writes `PEND`, `CORR` or `PRES` (R22, R50). A
step that is neither the reader's nor `rst` leaves `PEND` and `CORR`, and leaves `PRES` too unless it is an accepted
`READ` of a held frame: that one clears it and returns the frame, which is `RD.AHEAD` (R151). The reader's own step
writes `PRES` only by `RD.ACCEPT` with a `CORR` that is not empty, and sets it (R154): so `PRES` is set only there and
cleared only by `RD.AHEAD`. -/
def Obligations.OnlyTheReaderWritesItsBuffers : Prop :=
  ∀ s t : State, step s = .next t → nextTurn s ≠ .rst →
    (nextTurn s ≠ .rsy →
      t.pend = s.pend ∧ t.corr = s.corr ∧
      (t.pres = s.pres ∨
        ∃ c rest f, nextTurn s = .host ∧ s.hostQ = c :: rest ∧ decodeCommand c.word = .read ∧
          accepted .read s = true ∧ s.pres = some f ∧ t.pres = none ∧
          t.rr = some { status := .ok,
                        elem := some (.valid f.src f.dst (BitVec.ofNat 8 f.payload.length) (wireBytes f)) })) ∧
    (nextTurn s = .rsy →
      t.pres = s.pres ∨ (microOp s = .run .rdAccept ∧ s.corr ≠ [] ∧ t.pres ≠ none))

/-- Only reset clears `FAILED`, `OVF`, `EOSR` or `CLOSED` (R241). -/
def Obligations.StickyFlagsFallOnlyAtReset : Prop :=
  ∀ s t : State, step s = .next t → nextTurn s ≠ .rst →
    (s.failed = true → t.failed = true) ∧ (s.ovf = true → t.ovf = true) ∧
    (s.eosr = true → t.eosr = true) ∧ (s.closed = true → t.closed = true)

/-- The last line of `READ`, and every failing guard, is unreachable: no step of a state that meets the
invariant raises `InternalFault` (R167, R216). -/
def Obligations.InternalFaultIsUnreachable : Prop :=
  ∀ s t : State, Inv s → step s = .next t →
    microOp s ≠ .internalFault ∧
    (s.rr ≠ some { status := .internal, elem := none } → t.rr ≠ some { status := .internal, elem := none })

/-- Whenever a `READ` ends with status `ST_OK`, `CORR` is empty (R168). -/
def Obligations.ReadsThatSucceedLeaveCorrEmpty : Prop :=
  ∀ (s t : State) (e : Element), Inv s → step s = .next t → s.rr = none →
    t.rr = some { status := .ok, elem := some e } → t.corr = []

/-- Once `EOSR` is set the ingress is never asked again: a result in the slot stays there unread until reset
(R139, R157). -/
def Obligations.EndOfStreamIsNeverAskedAgain : Prop :=
  ∀ s t : State, Inv s → step s = .next t → nextTurn s ≠ .rst → s.eosr = true → s.slot ≠ .empty →
    t.slot = s.slot

/-- The transitions of `RS` (R165): a step that is not `rst` leaves `RS` or makes one of the table's moves, and
5, 6, 7 are never taken. The codes are R28's, which StatusWordFields gives value by value. -/
def Obligations.ControlStateTransitions : Prop :=
  ∀ s t : State, step s = .next t → nextTurn s ≠ .rst →
    t.rs.code.toNat ≤ 4 ∧
    (s.rs.code = t.rs.code ∨ (s.rs.code, t.rs.code) ∈
      ([(0, 1), (1, 2), (1, 0), (2, 4), (2, 1), (2, 3), (2, 0), (3, 1), (3, 0), (4, 0)] :
        List (BitVec 3 × BitVec 3)))

/-- Liveness of R259: from any state of a `READ` the reader makes at most three micro-steps for each byte of `PEND`
and six more before it ends the `READ`, waits in a real fetch, or holds a fetched byte. -/
def Obligations.ReaderSettlesInBoundedMicroSteps : Prop :=
  ∀ s : State,
    ∃ k, k ≤ 3 * s.pend.length + 6 ∧
      ((microSteps k s).rs = .idle ∨ microOp (microSteps k s) = .wait ∨
        ∃ b, (microSteps k s).rs = .fetch (.byte b))
end

