-- ==== Sys2Proof/Laws/Codec.lean ====
section
/-! SUPPORT. The algebra of `XOR8` (R100 to R104) and the shape of the wire form. -/

namespace Sys2Proof.Laws

open Sys2Proof.Machine

/-- A fold of exclusive-or from any start is that start and `XOR8`. -/
theorem foldl_xor (s : List Byte) (a : Byte) :
    s.foldl (fun acc v => acc ^^^ v) a = a ^^^ xor8 s := by
  induction s generalizing a with
  | nil => simp [xor8]
  | cons v s ih =>
    simp only [xor8, List.foldl_cons] at ih ⊢
    rw [ih (a ^^^ v), ih (0 ^^^ v)]
    simp [BitVec.xor_assoc]

@[simp] theorem xor8_nil : xor8 [] = 0 := rfl

@[simp] theorem xor8_cons (v : Byte) (s : List Byte) : xor8 (v :: s) = v ^^^ xor8 s := by
  simp only [xor8, List.foldl_cons]
  rw [foldl_xor]
  simp [xor8]

@[simp] theorem xor8_append (s t : List Byte) : xor8 (s ++ t) = xor8 s ^^^ xor8 t := by
  induction s with
  | nil => simp
  | cons v s ih => simp [ih, BitVec.xor_assoc]

/-- The checksum byte makes the whole sequence sum to 0 (R103). -/
theorem xor8_snoc_self (s : List Byte) : xor8 (s ++ [xor8 s]) = 0 := by simp

/-- Exclusive-or is 0 exactly on equal bytes. -/
theorem xor_eq_zero {a b : Byte} : a ^^^ b = 0 ↔ a = b := by
  constructor
  · intro h
    have : a ^^^ b ^^^ b = 0 ^^^ b := by rw [h]
    simpa [BitVec.xor_assoc] using this
  · rintro rfl
    simp

/-- One byte replaced: the old one leaves the sum, the new one enters it. -/
theorem xor8_set (s : List Byte) (i : Nat) (v : Byte) (h : i < s.length) :
    xor8 (s.set i v) = xor8 s ^^^ s[i] ^^^ v := by
  induction s generalizing i with
  | nil => simp at h
  | cons a s ih =>
    cases i with
    | zero => simp [BitVec.xor_comm]
    | succ i =>
      simp only [List.length_cons, Nat.add_lt_add_iff_right] at h
      simp only [List.set_cons_succ, xor8_cons, List.getElem_cons_succ, ih i h]
      simp [BitVec.xor_assoc]

theorem headerAndPayload_length (f : Frame) : (headerAndPayload f).length = f.payload.length + 3 := by
  simp [headerAndPayload]

@[simp] theorem wireBytes_length (f : Frame) : (wireBytes f).length = f.payload.length + 4 := by
  simp [wireBytes, headerAndPayload_length]

/-- R115 for the wire form. -/
@[simp] theorem xor8_wireBytes (f : Frame) : xor8 (wireBytes f) = 0 := xor8_snoc_self _

/-- A length byte that fits claims exactly the frame's size (R71). -/
theorem expectedSize_lenByte {p : Nat} (h : p ≤ 253) : expectedSize (lenByte p) = p + 4 := by
  simp [expectedSize, lenByte]
  omega

end Sys2Proof.Laws
end

