-- ==== Sys2Proof/Laws/State.lean ====
section
/-! SUPPORT. The fields of a state after each shared update: what it writes and what it leaves alone. -/

namespace Sys2Proof.Laws

open Sys2Proof.Machine

/-! What each update writes. -/

@[simp] theorem respond_sr (b : SysBody) (s : State) : (respond b s).sr = some { status := .ok, body := b } := rfl
@[simp] theorem raise_system_sr (st : Status) (s : State) :
    (raise .system st s).sr = some { status := st, body := .none } := rfl
@[simp] theorem raise_reader_rs (st : Status) (s : State) : (raise .reader st s).rs = .idle := rfl
@[simp] theorem raise_reader_rr (st : Status) (s : State) :
    (raise .reader st s).rr = some { status := st, elem := none } := rfl
@[simp] theorem respondElement_rs (e : Element) (s : State) : (respondElement e s).rs = .idle := rfl
@[simp] theorem respondElement_rr (e : Element) (s : State) :
    (respondElement e s).rr = some { status := .ok, elem := some e } := rfl
@[simp] theorem popTurn_sched (s : State) : (popTurn s).sched = s.sched.tail := rfl

/-! `respond b s` leaves alone every field but sr. -/

@[simp] theorem respond_pend (b : SysBody) (s : State) : (respond b s).pend = s.pend := rfl
@[simp] theorem respond_corr (b : SysBody) (s : State) : (respond b s).corr = s.corr := rfl
@[simp] theorem respond_pres (b : SysBody) (s : State) : (respond b s).pres = s.pres := rfl
@[simp] theorem respond_eosr (b : SysBody) (s : State) : (respond b s).eosr = s.eosr := rfl
@[simp] theorem respond_susp (b : SysBody) (s : State) : (respond b s).susp = s.susp := rfl
@[simp] theorem respond_nomore (b : SysBody) (s : State) : (respond b s).nomore = s.nomore := rfl
@[simp] theorem respond_failed (b : SysBody) (s : State) : (respond b s).failed = s.failed := rfl
@[simp] theorem respond_ovf (b : SysBody) (s : State) : (respond b s).ovf = s.ovf := rfl
@[simp] theorem respond_closed (b : SysBody) (s : State) : (respond b s).closed = s.closed := rfl
@[simp] theorem respond_rs (b : SysBody) (s : State) : (respond b s).rs = s.rs := rfl
@[simp] theorem respond_slot (b : SysBody) (s : State) : (respond b s).slot = s.slot := rfl
@[simp] theorem respond_gapcnt (b : SysBody) (s : State) : (respond b s).gapcnt = s.gapcnt := rfl
@[simp] theorem respond_tsnap (b : SysBody) (s : State) : (respond b s).tsnap = s.tsnap := rfl
@[simp] theorem respond_chkacc (b : SysBody) (s : State) : (respond b s).chkacc = s.chkacc := rfl
@[simp] theorem respond_cr0 (b : SysBody) (s : State) : (respond b s).cr0 = s.cr0 := rfl
@[simp] theorem respond_fSrc (b : SysBody) (s : State) : (respond b s).fSrc = s.fSrc := rfl
@[simp] theorem respond_fDst (b : SysBody) (s : State) : (respond b s).fDst = s.fDst := rfl
@[simp] theorem respond_fPlen (b : SysBody) (s : State) : (respond b s).fPlen = s.fPlen := rfl
@[simp] theorem respond_fPay (b : SysBody) (s : State) : (respond b s).fPay = s.fPay := rfl
@[simp] theorem respond_wN (b : SysBody) (s : State) : (respond b s).wN = s.wN := rfl
@[simp] theorem respond_wBuf (b : SysBody) (s : State) : (respond b s).wBuf = s.wBuf := rfl
@[simp] theorem respond_eKind (b : SysBody) (s : State) : (respond b s).eKind = s.eKind := rfl
@[simp] theorem respond_eSrc (b : SysBody) (s : State) : (respond b s).eSrc = s.eSrc := rfl
@[simp] theorem respond_eDst (b : SysBody) (s : State) : (respond b s).eDst = s.eDst := rfl
@[simp] theorem respond_ePlen (b : SysBody) (s : State) : (respond b s).ePlen = s.ePlen := rfl
@[simp] theorem respond_eRaw (b : SysBody) (s : State) : (respond b s).eRaw = s.eRaw := rfl
@[simp] theorem respond_rr (b : SysBody) (s : State) : (respond b s).rr = s.rr := rfl
@[simp] theorem respond_sysWait (b : SysBody) (s : State) : (respond b s).sysWait = s.sysWait := rfl
@[simp] theorem respond_params (b : SysBody) (s : State) : (respond b s).params = s.params := rfl
@[simp] theorem respond_hostQ (b : SysBody) (s : State) : (respond b s).hostQ = s.hostQ := rfl
@[simp] theorem respond_hdIn (b : SysBody) (s : State) : (respond b s).hdIn = s.hdIn := rfl
@[simp] theorem respond_linkQ (b : SysBody) (s : State) : (respond b s).linkQ = s.linkQ := rfl
@[simp] theorem respond_closeAns (b : SysBody) (s : State) : (respond b s).closeAns = s.closeAns := rfl
@[simp] theorem respond_xpClose (b : SysBody) (s : State) : (respond b s).xpClose = s.xpClose := rfl
@[simp] theorem respond_sched (b : SysBody) (s : State) : (respond b s).sched = s.sched := rfl
@[simp] theorem respond_sysLog (b : SysBody) (s : State) : (respond b s).sysLog = s.sysLog := rfl
@[simp] theorem respond_rdrLog (b : SysBody) (s : State) : (respond b s).rdrLog = s.rdrLog := rfl

/-! `raise .system st s` leaves alone every field but sr. -/

@[simp] theorem raise_system_pend (st : Status) (s : State) : (raise .system st s).pend = s.pend := rfl
@[simp] theorem raise_system_corr (st : Status) (s : State) : (raise .system st s).corr = s.corr := rfl
@[simp] theorem raise_system_pres (st : Status) (s : State) : (raise .system st s).pres = s.pres := rfl
@[simp] theorem raise_system_eosr (st : Status) (s : State) : (raise .system st s).eosr = s.eosr := rfl
@[simp] theorem raise_system_susp (st : Status) (s : State) : (raise .system st s).susp = s.susp := rfl
@[simp] theorem raise_system_nomore (st : Status) (s : State) : (raise .system st s).nomore = s.nomore := rfl
@[simp] theorem raise_system_failed (st : Status) (s : State) : (raise .system st s).failed = s.failed := rfl
@[simp] theorem raise_system_ovf (st : Status) (s : State) : (raise .system st s).ovf = s.ovf := rfl
@[simp] theorem raise_system_closed (st : Status) (s : State) : (raise .system st s).closed = s.closed := rfl
@[simp] theorem raise_system_rs (st : Status) (s : State) : (raise .system st s).rs = s.rs := rfl
@[simp] theorem raise_system_slot (st : Status) (s : State) : (raise .system st s).slot = s.slot := rfl
@[simp] theorem raise_system_gapcnt (st : Status) (s : State) : (raise .system st s).gapcnt = s.gapcnt := rfl
@[simp] theorem raise_system_tsnap (st : Status) (s : State) : (raise .system st s).tsnap = s.tsnap := rfl
@[simp] theorem raise_system_chkacc (st : Status) (s : State) : (raise .system st s).chkacc = s.chkacc := rfl
@[simp] theorem raise_system_cr0 (st : Status) (s : State) : (raise .system st s).cr0 = s.cr0 := rfl
@[simp] theorem raise_system_fSrc (st : Status) (s : State) : (raise .system st s).fSrc = s.fSrc := rfl
@[simp] theorem raise_system_fDst (st : Status) (s : State) : (raise .system st s).fDst = s.fDst := rfl
@[simp] theorem raise_system_fPlen (st : Status) (s : State) : (raise .system st s).fPlen = s.fPlen := rfl
@[simp] theorem raise_system_fPay (st : Status) (s : State) : (raise .system st s).fPay = s.fPay := rfl
@[simp] theorem raise_system_wN (st : Status) (s : State) : (raise .system st s).wN = s.wN := rfl
@[simp] theorem raise_system_wBuf (st : Status) (s : State) : (raise .system st s).wBuf = s.wBuf := rfl
@[simp] theorem raise_system_eKind (st : Status) (s : State) : (raise .system st s).eKind = s.eKind := rfl
@[simp] theorem raise_system_eSrc (st : Status) (s : State) : (raise .system st s).eSrc = s.eSrc := rfl
@[simp] theorem raise_system_eDst (st : Status) (s : State) : (raise .system st s).eDst = s.eDst := rfl
@[simp] theorem raise_system_ePlen (st : Status) (s : State) : (raise .system st s).ePlen = s.ePlen := rfl
@[simp] theorem raise_system_eRaw (st : Status) (s : State) : (raise .system st s).eRaw = s.eRaw := rfl
@[simp] theorem raise_system_rr (st : Status) (s : State) : (raise .system st s).rr = s.rr := rfl
@[simp] theorem raise_system_sysWait (st : Status) (s : State) : (raise .system st s).sysWait = s.sysWait := rfl
@[simp] theorem raise_system_params (st : Status) (s : State) : (raise .system st s).params = s.params := rfl
@[simp] theorem raise_system_hostQ (st : Status) (s : State) : (raise .system st s).hostQ = s.hostQ := rfl
@[simp] theorem raise_system_hdIn (st : Status) (s : State) : (raise .system st s).hdIn = s.hdIn := rfl
@[simp] theorem raise_system_linkQ (st : Status) (s : State) : (raise .system st s).linkQ = s.linkQ := rfl
@[simp] theorem raise_system_closeAns (st : Status) (s : State) : (raise .system st s).closeAns = s.closeAns := rfl
@[simp] theorem raise_system_xpClose (st : Status) (s : State) : (raise .system st s).xpClose = s.xpClose := rfl
@[simp] theorem raise_system_sched (st : Status) (s : State) : (raise .system st s).sched = s.sched := rfl
@[simp] theorem raise_system_sysLog (st : Status) (s : State) : (raise .system st s).sysLog = s.sysLog := rfl
@[simp] theorem raise_system_rdrLog (st : Status) (s : State) : (raise .system st s).rdrLog = s.rdrLog := rfl

/-! `raise .reader st s` leaves alone every field but rr, rs. -/

@[simp] theorem raise_reader_pend (st : Status) (s : State) : (raise .reader st s).pend = s.pend := rfl
@[simp] theorem raise_reader_corr (st : Status) (s : State) : (raise .reader st s).corr = s.corr := rfl
@[simp] theorem raise_reader_pres (st : Status) (s : State) : (raise .reader st s).pres = s.pres := rfl
@[simp] theorem raise_reader_eosr (st : Status) (s : State) : (raise .reader st s).eosr = s.eosr := rfl
@[simp] theorem raise_reader_susp (st : Status) (s : State) : (raise .reader st s).susp = s.susp := rfl
@[simp] theorem raise_reader_nomore (st : Status) (s : State) : (raise .reader st s).nomore = s.nomore := rfl
@[simp] theorem raise_reader_failed (st : Status) (s : State) : (raise .reader st s).failed = s.failed := rfl
@[simp] theorem raise_reader_ovf (st : Status) (s : State) : (raise .reader st s).ovf = s.ovf := rfl
@[simp] theorem raise_reader_closed (st : Status) (s : State) : (raise .reader st s).closed = s.closed := rfl
@[simp] theorem raise_reader_slot (st : Status) (s : State) : (raise .reader st s).slot = s.slot := rfl
@[simp] theorem raise_reader_gapcnt (st : Status) (s : State) : (raise .reader st s).gapcnt = s.gapcnt := rfl
@[simp] theorem raise_reader_tsnap (st : Status) (s : State) : (raise .reader st s).tsnap = s.tsnap := rfl
@[simp] theorem raise_reader_chkacc (st : Status) (s : State) : (raise .reader st s).chkacc = s.chkacc := rfl
@[simp] theorem raise_reader_cr0 (st : Status) (s : State) : (raise .reader st s).cr0 = s.cr0 := rfl
@[simp] theorem raise_reader_fSrc (st : Status) (s : State) : (raise .reader st s).fSrc = s.fSrc := rfl
@[simp] theorem raise_reader_fDst (st : Status) (s : State) : (raise .reader st s).fDst = s.fDst := rfl
@[simp] theorem raise_reader_fPlen (st : Status) (s : State) : (raise .reader st s).fPlen = s.fPlen := rfl
@[simp] theorem raise_reader_fPay (st : Status) (s : State) : (raise .reader st s).fPay = s.fPay := rfl
@[simp] theorem raise_reader_wN (st : Status) (s : State) : (raise .reader st s).wN = s.wN := rfl
@[simp] theorem raise_reader_wBuf (st : Status) (s : State) : (raise .reader st s).wBuf = s.wBuf := rfl
@[simp] theorem raise_reader_eKind (st : Status) (s : State) : (raise .reader st s).eKind = s.eKind := rfl
@[simp] theorem raise_reader_eSrc (st : Status) (s : State) : (raise .reader st s).eSrc = s.eSrc := rfl
@[simp] theorem raise_reader_eDst (st : Status) (s : State) : (raise .reader st s).eDst = s.eDst := rfl
@[simp] theorem raise_reader_ePlen (st : Status) (s : State) : (raise .reader st s).ePlen = s.ePlen := rfl
@[simp] theorem raise_reader_eRaw (st : Status) (s : State) : (raise .reader st s).eRaw = s.eRaw := rfl
@[simp] theorem raise_reader_sr (st : Status) (s : State) : (raise .reader st s).sr = s.sr := rfl
@[simp] theorem raise_reader_sysWait (st : Status) (s : State) : (raise .reader st s).sysWait = s.sysWait := rfl
@[simp] theorem raise_reader_params (st : Status) (s : State) : (raise .reader st s).params = s.params := rfl
@[simp] theorem raise_reader_hostQ (st : Status) (s : State) : (raise .reader st s).hostQ = s.hostQ := rfl
@[simp] theorem raise_reader_hdIn (st : Status) (s : State) : (raise .reader st s).hdIn = s.hdIn := rfl
@[simp] theorem raise_reader_linkQ (st : Status) (s : State) : (raise .reader st s).linkQ = s.linkQ := rfl
@[simp] theorem raise_reader_closeAns (st : Status) (s : State) : (raise .reader st s).closeAns = s.closeAns := rfl
@[simp] theorem raise_reader_xpClose (st : Status) (s : State) : (raise .reader st s).xpClose = s.xpClose := rfl
@[simp] theorem raise_reader_sched (st : Status) (s : State) : (raise .reader st s).sched = s.sched := rfl
@[simp] theorem raise_reader_sysLog (st : Status) (s : State) : (raise .reader st s).sysLog = s.sysLog := rfl
@[simp] theorem raise_reader_rdrLog (st : Status) (s : State) : (raise .reader st s).rdrLog = s.rdrLog := rfl

/-! `respondElement e s` leaves alone every field but eDst, eKind, ePlen, eRaw, eSrc, rr, rs. -/

@[simp] theorem respondElement_pend (e : Element) (s : State) : (respondElement e s).pend = s.pend := by cases e <;> rfl
@[simp] theorem respondElement_corr (e : Element) (s : State) : (respondElement e s).corr = s.corr := by cases e <;> rfl
@[simp] theorem respondElement_pres (e : Element) (s : State) : (respondElement e s).pres = s.pres := by cases e <;> rfl
@[simp] theorem respondElement_eosr (e : Element) (s : State) : (respondElement e s).eosr = s.eosr := by cases e <;> rfl
@[simp] theorem respondElement_susp (e : Element) (s : State) : (respondElement e s).susp = s.susp := by cases e <;> rfl
@[simp] theorem respondElement_nomore (e : Element) (s : State) : (respondElement e s).nomore = s.nomore := by cases e <;> rfl
@[simp] theorem respondElement_failed (e : Element) (s : State) : (respondElement e s).failed = s.failed := by cases e <;> rfl
@[simp] theorem respondElement_ovf (e : Element) (s : State) : (respondElement e s).ovf = s.ovf := by cases e <;> rfl
@[simp] theorem respondElement_closed (e : Element) (s : State) : (respondElement e s).closed = s.closed := by cases e <;> rfl
@[simp] theorem respondElement_slot (e : Element) (s : State) : (respondElement e s).slot = s.slot := by cases e <;> rfl
@[simp] theorem respondElement_gapcnt (e : Element) (s : State) : (respondElement e s).gapcnt = s.gapcnt := by cases e <;> rfl
@[simp] theorem respondElement_tsnap (e : Element) (s : State) : (respondElement e s).tsnap = s.tsnap := by cases e <;> rfl
@[simp] theorem respondElement_chkacc (e : Element) (s : State) : (respondElement e s).chkacc = s.chkacc := by cases e <;> rfl
@[simp] theorem respondElement_cr0 (e : Element) (s : State) : (respondElement e s).cr0 = s.cr0 := by cases e <;> rfl
@[simp] theorem respondElement_fSrc (e : Element) (s : State) : (respondElement e s).fSrc = s.fSrc := by cases e <;> rfl
@[simp] theorem respondElement_fDst (e : Element) (s : State) : (respondElement e s).fDst = s.fDst := by cases e <;> rfl
@[simp] theorem respondElement_fPlen (e : Element) (s : State) : (respondElement e s).fPlen = s.fPlen := by cases e <;> rfl
@[simp] theorem respondElement_fPay (e : Element) (s : State) : (respondElement e s).fPay = s.fPay := by cases e <;> rfl
@[simp] theorem respondElement_wN (e : Element) (s : State) : (respondElement e s).wN = s.wN := by cases e <;> rfl
@[simp] theorem respondElement_wBuf (e : Element) (s : State) : (respondElement e s).wBuf = s.wBuf := by cases e <;> rfl
@[simp] theorem respondElement_sr (e : Element) (s : State) : (respondElement e s).sr = s.sr := by cases e <;> rfl
@[simp] theorem respondElement_sysWait (e : Element) (s : State) : (respondElement e s).sysWait = s.sysWait := by cases e <;> rfl
@[simp] theorem respondElement_params (e : Element) (s : State) : (respondElement e s).params = s.params := by cases e <;> rfl
@[simp] theorem respondElement_hostQ (e : Element) (s : State) : (respondElement e s).hostQ = s.hostQ := by cases e <;> rfl
@[simp] theorem respondElement_hdIn (e : Element) (s : State) : (respondElement e s).hdIn = s.hdIn := by cases e <;> rfl
@[simp] theorem respondElement_linkQ (e : Element) (s : State) : (respondElement e s).linkQ = s.linkQ := by cases e <;> rfl
@[simp] theorem respondElement_closeAns (e : Element) (s : State) : (respondElement e s).closeAns = s.closeAns := by cases e <;> rfl
@[simp] theorem respondElement_xpClose (e : Element) (s : State) : (respondElement e s).xpClose = s.xpClose := by cases e <;> rfl
@[simp] theorem respondElement_sched (e : Element) (s : State) : (respondElement e s).sched = s.sched := by cases e <;> rfl
@[simp] theorem respondElement_sysLog (e : Element) (s : State) : (respondElement e s).sysLog = s.sysLog := by cases e <;> rfl
@[simp] theorem respondElement_rdrLog (e : Element) (s : State) : (respondElement e s).rdrLog = s.rdrLog := by cases e <;> rfl

/-! `popTurn s` leaves alone every field but sched. -/

@[simp] theorem popTurn_pend (s : State) : (popTurn s).pend = s.pend := rfl
@[simp] theorem popTurn_corr (s : State) : (popTurn s).corr = s.corr := rfl
@[simp] theorem popTurn_pres (s : State) : (popTurn s).pres = s.pres := rfl
@[simp] theorem popTurn_eosr (s : State) : (popTurn s).eosr = s.eosr := rfl
@[simp] theorem popTurn_susp (s : State) : (popTurn s).susp = s.susp := rfl
@[simp] theorem popTurn_nomore (s : State) : (popTurn s).nomore = s.nomore := rfl
@[simp] theorem popTurn_failed (s : State) : (popTurn s).failed = s.failed := rfl
@[simp] theorem popTurn_ovf (s : State) : (popTurn s).ovf = s.ovf := rfl
@[simp] theorem popTurn_closed (s : State) : (popTurn s).closed = s.closed := rfl
@[simp] theorem popTurn_rs (s : State) : (popTurn s).rs = s.rs := rfl
@[simp] theorem popTurn_slot (s : State) : (popTurn s).slot = s.slot := rfl
@[simp] theorem popTurn_gapcnt (s : State) : (popTurn s).gapcnt = s.gapcnt := rfl
@[simp] theorem popTurn_tsnap (s : State) : (popTurn s).tsnap = s.tsnap := rfl
@[simp] theorem popTurn_chkacc (s : State) : (popTurn s).chkacc = s.chkacc := rfl
@[simp] theorem popTurn_cr0 (s : State) : (popTurn s).cr0 = s.cr0 := rfl
@[simp] theorem popTurn_fSrc (s : State) : (popTurn s).fSrc = s.fSrc := rfl
@[simp] theorem popTurn_fDst (s : State) : (popTurn s).fDst = s.fDst := rfl
@[simp] theorem popTurn_fPlen (s : State) : (popTurn s).fPlen = s.fPlen := rfl
@[simp] theorem popTurn_fPay (s : State) : (popTurn s).fPay = s.fPay := rfl
@[simp] theorem popTurn_wN (s : State) : (popTurn s).wN = s.wN := rfl
@[simp] theorem popTurn_wBuf (s : State) : (popTurn s).wBuf = s.wBuf := rfl
@[simp] theorem popTurn_eKind (s : State) : (popTurn s).eKind = s.eKind := rfl
@[simp] theorem popTurn_eSrc (s : State) : (popTurn s).eSrc = s.eSrc := rfl
@[simp] theorem popTurn_eDst (s : State) : (popTurn s).eDst = s.eDst := rfl
@[simp] theorem popTurn_ePlen (s : State) : (popTurn s).ePlen = s.ePlen := rfl
@[simp] theorem popTurn_eRaw (s : State) : (popTurn s).eRaw = s.eRaw := rfl
@[simp] theorem popTurn_sr (s : State) : (popTurn s).sr = s.sr := rfl
@[simp] theorem popTurn_rr (s : State) : (popTurn s).rr = s.rr := rfl
@[simp] theorem popTurn_sysWait (s : State) : (popTurn s).sysWait = s.sysWait := rfl
@[simp] theorem popTurn_params (s : State) : (popTurn s).params = s.params := rfl
@[simp] theorem popTurn_hostQ (s : State) : (popTurn s).hostQ = s.hostQ := rfl
@[simp] theorem popTurn_hdIn (s : State) : (popTurn s).hdIn = s.hdIn := rfl
@[simp] theorem popTurn_linkQ (s : State) : (popTurn s).linkQ = s.linkQ := rfl
@[simp] theorem popTurn_closeAns (s : State) : (popTurn s).closeAns = s.closeAns := rfl
@[simp] theorem popTurn_xpClose (s : State) : (popTurn s).xpClose = s.xpClose := rfl
@[simp] theorem popTurn_sysLog (s : State) : (popTurn s).sysLog = s.sysLog := rfl
@[simp] theorem popTurn_rdrLog (s : State) : (popTurn s).rdrLog = s.rdrLog := rfl

end Sys2Proof.Laws
end

