-- ==== Sys2Proof/Laws/Ops.lean ====
section
/-! SUPPORT. One lemma for each shared operation: everything it can do. -/

namespace Sys2Proof.Laws

open Sys2Proof.Machine

theorem chkFold_eq (bytes : List Byte) (s : State) :
    bytes.foldl (fun t v => chkAccumulate v t) s = { s with chkacc := s.chkacc ^^^ xor8 bytes } := by
  induction bytes generalizing s with
  | nil => simp
  | cons v bytes ih => rw [List.foldl_cons, ih]; simp [chkAccumulate, BitVec.xor_assoc]

/-- A checksum evaluation leaves `XOR8` in `CHKACC` and nothing else changed (R101, R102). -/
@[simp] theorem chkSum_eq (bytes : List Byte) (s : State) :
    chkSum bytes s = { s with chkacc := xor8 bytes } := by
  simp [chkSum, chkFold_eq, chkClear]

/-- `PushCorr` on a `CORR` that is not full (R166). -/
theorem pushCorr_room {v : Byte} {s : State} (h : s.params.corrCap ≠ some s.corr.length) :
    pushCorr v s = .ok { s with corr := s.corr ++ [v] } := by
  simp [pushCorr, append, h]

/-- `PushCorr` on a full `CORR` (R166). -/
theorem pushCorr_full {v : Byte} {s : State} (h : s.params.corrCap = some s.corr.length) :
    pushCorr v s = .error (overflow s) := by
  simp [pushCorr, h]

/-- Everything `PushCorr(PopFront(PEND))` can do. -/
theorem moveOldest_cases (s : State) :
    (s.pend = [] ∧ moveOldest s = .error (internalFault s)) ∨
    (∃ v rest, s.pend = v :: rest ∧ s.params.corrCap ≠ some s.corr.length ∧
      moveOldest s = .ok { s with pend := rest, corr := s.corr ++ [v] }) ∨
    (∃ v rest, s.pend = v :: rest ∧ s.params.corrCap = some s.corr.length ∧
      moveOldest s = .error (overflow { s with pend := rest })) := by
  cases hp : s.pend with
  | nil => exact .inl ⟨rfl, by simp [moveOldest, hp, popFront]⟩
  | cons v rest =>
    by_cases hc : s.params.corrCap = some s.corr.length
    · exact .inr (.inr ⟨v, rest, rfl, hc, by simp [moveOldest, hp, popFront, pushCorr, hc]⟩)
    · exact .inr (.inl ⟨v, rest, rfl, hc, by simp [moveOldest, hp, popFront, pushCorr, append, hc]⟩)

/-- Everything the move of all bytes can do: all of them reach `CORR`, or the first `k` do, one is lost and
the rest stays in `PEND`. -/
theorem moveAll_cases (bytes : List Byte) (s : State) (hs : s.pend = bytes) :
    moveAll bytes s = .ok { s with pend := [], corr := s.corr ++ bytes } ∨
    (∃ before v after, bytes = before ++ v :: after ∧
      s.params.corrCap = some (s.corr ++ before).length ∧
      moveAll bytes s = .error (overflow { s with pend := after, corr := s.corr ++ before })) := by
  induction bytes generalizing s with
  | nil => left; cases s; simp_all [moveAll]
  | cons v rest ih =>
    by_cases hc : s.params.corrCap = some s.corr.length
    · exact .inr ⟨[], v, rest, rfl, by simpa using hc, by simp [moveAll, pushCorr, hc]⟩
    · rcases ih { s with pend := rest, corr := s.corr ++ [v] } rfl with h | ⟨b, w, a, hr, hcap, h⟩
      · left; simp [moveAll, pushCorr, append, hc, h]
      · exact .inr ⟨v :: b, w, a, by simp [hr], by simpa using hcap,
          by simp [moveAll, pushCorr, append, hc, h]⟩

/-- A real fetch poll changes only the slot and `RS` (R134). -/
theorem pollSlot_cases {s t : State} (h : pollSlot s = some t) :
    (∃ b, s.slot = .byte b ∧ t = { s with slot := .empty, rs := .fetch (.byte b) }) ∨
    (s.slot = .eos ∧ t = { s with slot := .empty, rs := .nodata .eos }) ∨
    (s.slot = .err ∧ t = { s with slot := .empty, rs := .fetch .fail }) ∨
    (s.slot = .empty ∧ s.closed = true ∧ t = { s with rs := .fetch .fail }) := by
  unfold pollSlot at h
  cases hs : s.slot <;> simp_all

/-- The poll finds nothing exactly when the ingress is ready for a deposit (R134, R143). -/
theorem pollSlot_none (s : State) : pollSlot s = none ↔ rxReady s = true := by
  unfold pollSlot rxReady
  cases hs : s.slot <;> simp

/-- Operand bytes come off the front of the data-in stream and nothing else changes. -/
theorem takeData_some {n : Nat} {s t : State} {b : List Byte} (h : takeData n s = some (b, t)) :
    b = s.hdIn.take n ∧ b.length = n ∧ n ≤ s.hdIn.length ∧ t = { s with hdIn := s.hdIn.drop n } := by
  unfold takeData at h
  split at h
  · cases h
  · simp only [Option.some.injEq, Prod.mk.injEq] at h
    obtain ⟨rfl, rfl⟩ := h
    refine ⟨rfl, by simp; omega, by omega, rfl⟩

end Sys2Proof.Laws
end

