-- ==== Sys2Proof/Laws/PerInstr.lean ====
section
/-! SUPPORT. Statements made for every operation, one lemma per constructor. -/

namespace Sys2Proof.Laws

/-- The formats of spec/opcode_table.json: C a command, U none, X an ingress transfer, W the wire. -/
inductive Format where
  | c
  | u
  | x
  | w
deriving DecidableEq, Repr

/-- The format of an operation's row. -/
def format : Instr → Format
  | .nop | .enc _ _ _ | .dec _ | .read | .close | .rdcr _ | .wrcr _ _ | .reserved _ => .c
  | .rdAhead | .rdPopshort | .rdAccept | .rdPopbad | .rdNeedmore | .rdFetch | .rdByte _ | .rdNodata _ => .u
  | .rdFlush | .rdNull | .rdFail | .rdOvf | .chkClr | .chkAcc _ | .tmrTick => .u
  | .rxDeposit _ _ => .x
  | .frame _ _ _ => .w

/-- The format of a transfer. -/
def transferFormat : Transfer → Format
  | .command _ => .c
  | .ingress _ => .x
  | .wire _ => .w

namespace EncodedInItsFormat

/-- An operation is encoded in the format its row gives, and one of format U not at all. -/
def Statement (i : Instr) : Prop :=
  (encode i).map transferFormat = if format i = .u then none else some (format i)

theorem nop : Statement .nop := rfl
theorem enc (src dst : Byte) (len : BitVec 9) : Statement (.enc src dst len) := rfl
theorem dec (len : BitVec 9) : Statement (.dec len) := rfl
theorem read : Statement .read := rfl
theorem close : Statement .close := rfl
theorem rdcr (n : BitVec 4) : Statement (.rdcr n) := rfl
theorem wrcr (n : BitVec 4) (v : Half) : Statement (.wrcr n v) := rfl
theorem reserved (cmd : Byte) : Statement (.reserved cmd) := rfl
theorem rdAhead : Statement .rdAhead := rfl
theorem rdPopshort : Statement .rdPopshort := rfl
theorem rdAccept : Statement .rdAccept := rfl
theorem rdPopbad : Statement .rdPopbad := rfl
theorem rdNeedmore : Statement .rdNeedmore := rfl
theorem rdFetch : Statement .rdFetch := rfl
theorem rdByte (b : Byte) : Statement (.rdByte b) := rfl
theorem rdNodata (a : NoData) : Statement (.rdNodata a) := rfl
theorem rdFlush : Statement .rdFlush := rfl
theorem rdNull : Statement .rdNull := rfl
theorem rdFail : Statement .rdFail := rfl
theorem rdOvf : Statement .rdOvf := rfl
theorem chkClr : Statement .chkClr := rfl
theorem chkAcc (v : Byte) : Statement (.chkAcc v) := rfl
theorem tmrTick : Statement .tmrTick := rfl
theorem rxDeposit (kind : RxKind) (data : Byte) : Statement (.rxDeposit kind data) := rfl
theorem frame (src dst : Byte) (payload : List Byte) : Statement (.frame src dst payload) := rfl

end EncodedInItsFormat

end Sys2Proof.Laws
end

