-- ==== Sys2Proof/Laws/Reader.lean ====
section
/-! SUPPORT. The candidate at the front of `PEND` and the moves from `PEND` to `CORR`, each with everything it
can be. -/

namespace Sys2Proof.Laws

open Sys2Proof.Machine

theorem wireBytes_eq (f : Frame) :
    wireBytes f = f.src :: lenByte f.payload.length :: f.dst :: (f.payload ++ [xor8 (headerAndPayload f)]) := by
  simp [wireBytes, headerAndPayload]

/-- The length byte of an encodable payload (R71). -/
theorem lenByte_toNat {p : Nat} (h : p ≤ 253) : (lenByte p).toNat = p + 2 := by
  simp [lenByte]
  omega

theorem frameOf_wireBytes (f : Frame) : frameOf (wireBytes f) = some f := by
  rw [wireBytes_eq]
  simp [frameOf]

/-- What the inspection can find (R153 to R156). -/
theorem judge_cases (p : List Byte) :
    (judge p = .short ∧ ∃ v l r, p = v :: l :: r) ∨
    (judge p = .accept ∧ ∃ v l r, p = v :: l :: r ∧ 4 ≤ l.toNat + 2 ∧ l.toNat + 2 ≤ p.length ∧
      xor8 (p.take (l.toNat + 2)) = 0) ∨
    (judge p = .bad ∧ ∃ v l r, p = v :: l :: r ∧ 4 ≤ l.toNat + 2 ∧ l.toNat + 2 ≤ p.length) ∨
    (judge p = .needMore ∧ p.length < 257) := by
  unfold judge bufRead expectedSize
  match p with
  | [] => simp
  | [v] => simp
  | v :: l :: r =>
    simp only [Config.minFrame, List.getElem?_cons_succ, List.getElem?_cons_zero]
    split
    · exact .inl ⟨rfl, v, l, r, rfl⟩
    · rename_i h1
      split
      · rename_i h2
        have := l.isLt
        exact .inr (.inr (.inr ⟨rfl, by omega⟩))
      · rename_i h2
        split
        · rename_i h3
          exact .inr (.inl ⟨rfl, v, l, r, rfl, by omega, by omega, h3⟩)
        · exact .inr (.inr (.inl ⟨rfl, v, l, r, rfl, by omega, by omega⟩))

/-- A complete candidate is cut at the size its length byte claims (R154). -/
theorem candidate_some {p : List Byte} {v l : Byte} {r : List Byte} (h : p = v :: l :: r)
    (h4 : 4 ≤ l.toNat + 2) (hl : l.toNat + 2 ≤ p.length) :
    candidate p = some (p.take (l.toNat + 2), p.drop (l.toNat + 2)) := by
  subst h
  simp only [List.length_cons] at hl
  simp [candidate, bufRead, expectedSize, removeFront]
  omega

/-- A window of the claimed size that sums to 0 is the wire form of one frame (R170). -/
theorem frame_of_window {p : List Byte} {v l : Byte} {r : List Byte} (h : p = v :: l :: r)
    (h4 : 4 ≤ l.toNat + 2) (hl : l.toNat + 2 ≤ p.length) (hx : xor8 (p.take (l.toNat + 2)) = 0) :
    ∃ f : Frame, f.payload.length ≤ 253 ∧ p.take (l.toNat + 2) = wireBytes f := by
  have hll := l.isLt
  subst h
  match r, hl with
  | [], hl => simp at hl; omega
  | dst :: body, hl =>
    simp only [List.length_cons] at hl
    generalize hb : body.take (l.toNat - 1) = q
    have hq : q.length = l.toNat - 1 := by rw [← hb]; simp; omega
    have ht : (v :: l :: dst :: body).take (l.toNat + 2) = v :: l :: dst :: q := by
      obtain ⟨m, hm⟩ : ∃ m, l.toNat = m + 1 := ⟨l.toNat - 1, by omega⟩
      rw [← hb, hm]
      simp
    have hne : q ≠ [] := by
      intro h0
      simp [h0] at hq
      omega
    have hlen : lenByte q.dropLast.length = l := by
      apply BitVec.eq_of_toNat_eq
      rw [List.length_dropLast, lenByte_toNat (by omega)]
      omega
    have hs : v :: l :: dst :: q = (v :: l :: dst :: q.dropLast) ++ [q.getLast hne] := by
      simp [List.dropLast_append_getLast]
    rw [ht] at hx ⊢
    rw [hs, xor8_append, xor8_cons (q.getLast hne) [], xor8_nil,
      show q.getLast hne ^^^ (0 : Byte) = q.getLast hne by simp] at hx
    refine ⟨⟨v, dst, q.dropLast⟩, by simp; omega, ?_⟩
    rw [wireBytes_eq]
    simp only [headerAndPayload, hlen]
    rw [xor_eq_zero.1 hx]
    simp [List.dropLast_append_getLast]

theorem moveOldest_room {s : State} {v : Byte} {rest : List Byte} (h : s.pend = v :: rest)
    (hc : s.params.corrCap ≠ some s.corr.length) :
    moveOldest s = .ok { s with pend := rest, corr := s.corr ++ [v] } := by
  simp [moveOldest, h, popFront, pushCorr, append, hc]

theorem moveOldest_full {s : State} {v : Byte} {rest : List Byte} (h : s.pend = v :: rest)
    (hc : s.params.corrCap = some s.corr.length) :
    moveOldest s = .error (overflow { s with pend := rest }) := by
  simp [moveOldest, h, popFront, pushCorr, hc]

/-- A move of all bytes that does not overflow stays within the capacity. -/
theorem moveAll_room (bytes : List Byte) (s : State) (n : Nat) (h : ∃ t, moveAll bytes s = .ok t)
    (hc : s.params.corrCap = some n) (hle : s.corr.length ≤ n) : (s.corr ++ bytes).length ≤ n := by
  induction bytes generalizing s with
  | nil => simpa using hle
  | cons v bytes ih =>
    obtain ⟨t, ht⟩ := h
    simp only [moveAll, pushCorr] at ht
    by_cases hf : s.params.corrCap = some s.corr.length
    · rw [if_pos hf] at ht
      cases ht
    · rw [if_neg hf] at ht
      have hne : s.corr.length ≠ n := fun e => hf (by rw [hc, e])
      have := ih _ ⟨t, ht⟩ hc (by simp [append]; omega)
      simpa [append] using this

end Sys2Proof.Laws
end

