-- ==== Sys2Proof/Laws/Step.lean ====
section
/-! SUPPORT. What one step can do, said once: every step but `rst` is one of the moves below on the part of the
state that the invariant and the stream are about. -/

namespace Sys2Proof.Laws

open Sys2Proof.Machine

/-- The part of the state that the reader, the ingress, the response channels and the link script make up. -/
structure View where
  pend : List Byte
  corr : List Byte
  pres : Option Frame
  eosr : Bool
  susp : Bool
  nomore : Bool
  failed : Bool
  ovf : Bool
  closed : Bool
  rs : ReaderState
  slot : Slot
  gapcnt : Half
  tsnap : Half
  params : Config.Params
  sr : Option SysResp
  rr : Option RdrResp
  sysWait : Option SysWait
  linkQ : List LinkItem
  rdrLog : List RdrResp
deriving DecidableEq, Repr

/-- The view of a state. -/
def view (s : State) : View where
  pend := s.pend
  corr := s.corr
  pres := s.pres
  eosr := s.eosr
  susp := s.susp
  nomore := s.nomore
  failed := s.failed
  ovf := s.ovf
  closed := s.closed
  rs := s.rs
  slot := s.slot
  gapcnt := s.gapcnt
  tsnap := s.tsnap
  params := s.params
  sr := s.sr
  rr := s.rr
  sysWait := s.sysWait
  linkQ := s.linkQ
  rdrLog := s.rdrLog

/-- Branch (a) of R157 applies. -/
abbrev View.Stops (c : View) : Prop := c.nomore = true ∧ (c.params.drain = .onePass ∨ c.pend = [])

/-- Branch (d) of R157 applies. -/
abbrev View.Asks (c : View) : Prop :=
  c.rs = .fetch .decide ∧ ¬ c.Stops ∧ c.eosr = false ∧ (c.susp = false ∨ c.pend = [])

/-- A real fetch looks at the slot, and `su` is `SUSP` after it: when it begins, or inside a wait. -/
abbrev View.Polls (c : View) (su : Bool) : Prop :=
  (c.Asks ∧ su = false) ∨ ∃ m, c.rs = .fetch (.wait m) ∧ su = c.susp

/-- A reader response without an element. -/
abbrev failure (st : Status) : Option RdrResp := some { status := st, elem := none }

/-- A reader response with an element. -/
abbrev success (e : Element) : Option RdrResp := some { status := .ok, elem := some e }

/-- What one step can do. -/
inductive Move : View → View → Prop where
  /-- a system command, the taking of its response, or nothing -/
  | sys (c : View) (sr : Option SysResp) (w : Option SysWait) (cl : Bool)
      (wait : (c.sysWait ≠ none → c.sr = none) → w ≠ none → sr = none) (sticky : c.closed = true → cl = true) :
      Move c { c with sr := sr, sysWait := w, closed := cl }
  | takeRdr (c : View) : Move c { c with rr := none, rdrLog := c.rdrLog ++ c.rr.toList }
  | deposit (c : View) (k : RxKind) (d : Byte) (rest : List LinkItem) (q : c.linkQ = .deposit k d :: rest)
      (slot : c.slot = .empty) (opened : c.closed = false) : Move c { c with slot := slotOf k d, linkQ := rest }
  | eos (c : View) (rest : List LinkItem) (q : c.linkQ = .eos :: rest) (slot : c.slot = .empty)
      (opened : c.closed = false) : Move c { c with slot := .eos }
  | gap (c : View) (rest : List LinkItem) (q : c.linkQ = .gap :: rest) : Move c { c with linkQ := rest }
  | frame (c : View) (f : Frame) (rest : List LinkItem) (q : c.linkQ = .frame f :: rest) :
      Move c { c with linkQ := ((encodeFrame f).getD []).map (LinkItem.deposit .byte) ++ rest }
  | tick (c : View) (rs : c.rs = .fetch (.wait .timed)) (slot : c.slot = .empty) (opened : c.closed = false)
      (more : c.gapcnt + 1 ≠ c.tsnap) : Move c { c with gapcnt := c.gapcnt + 1 }
  | lastTick (c : View) (rs : c.rs = .fetch (.wait .timed)) (slot : c.slot = .empty) (opened : c.closed = false)
      (last : c.gapcnt + 1 = c.tsnap) :
      Move c { c with gapcnt := c.gapcnt + 1, rs := .nodata .timeout, linkQ := dropGap c.linkQ }
  | readHeld (c : View) (f : Frame) (rs : c.rs = .idle) (rr : c.rr = none) (held : c.pres = some f) :
      Move c { c with pres := none, rs := .idle, rr := success (validElement f (wireBytes f)) }
  | readFailed (c : View) (rs : c.rs = .idle) (rr : c.rr = none) (none_ : c.pres = none)
      (failed : c.failed = true) : Move c { c with rs := .idle, rr := failure .ioFailure }
  | readOvf (c : View) (rs : c.rs = .idle) (rr : c.rr = none) (none_ : c.pres = none)
      (failed : c.failed = false) (ovf : c.ovf = true) : Move c { c with rs := .idle, rr := failure .overflow }
  | readStart (c : View) (rs : c.rs = .idle) (rr : c.rr = none) (none_ : c.pres = none)
      (failed : c.failed = false) (ovf : c.ovf = false) : Move c { c with nomore := false, rs := .inspect }
  | pop (c : View) (v : Byte) (rest : List Byte) (rs : c.rs = .inspect) (pend : c.pend = v :: rest)
      (left : rest ≠ []) (room : c.params.corrCap ≠ some c.corr.length) :
      Move c { c with pend := rest, corr := c.corr ++ [v], rs := .inspect }
  | popOvf (c : View) (v : Byte) (rest : List Byte) (rs : c.rs = .inspect) (pend : c.pend = v :: rest)
      (full : c.params.corrCap = some c.corr.length) :
      Move c { c with pend := rest, ovf := true, rs := .idle, rr := failure .overflow }
  | accept (c : View) (f : Frame) (rest : List Byte) (rs : c.rs = .inspect) (size : f.payload.length ≤ 253)
      (pend : c.pend = wireBytes f ++ rest) (corr : c.corr = []) :
      Move c { c with pend := rest, rs := .idle, rr := success (validElement f (wireBytes f)) }
  | acceptHold (c : View) (f : Frame) (rest : List Byte) (rs : c.rs = .inspect) (size : f.payload.length ≤ 253)
      (pend : c.pend = wireBytes f ++ rest) (corr : c.corr ≠ []) :
      Move c { c with
        pend := rest, corr := [], pres := some f, rs := .idle, rr := success (.invalid c.corr) }
  | needMore (c : View) (rs : c.rs = .inspect) (pend : c.pend.length < 257) :
      Move c { c with rs := .fetch .decide }
  | finish (c : View) (rs : c.rs = .fetch .decide) (stops : c.Stops) : Move c { c with rs := .finish }
  | eosAgain (c : View) (rs : c.rs = .fetch .decide) (stops : ¬ c.Stops) (eosr : c.eosr = true) :
      Move c { c with rs := .nodata .eos }
  | timeoutAgain (c : View) (rs : c.rs = .fetch .decide) (stops : ¬ c.Stops) (eosr : c.eosr = false)
      (susp : c.susp = true) (pend : c.pend ≠ []) : Move c { c with rs := .nodata .timeout }
  | pollByte (c : View) (su : Bool) (b : Byte) (polls : c.Polls su) (slot : c.slot = .byte b) :
      Move c { c with susp := su, slot := .empty, rs := .fetch (.byte b) }
  | pollEos (c : View) (su : Bool) (polls : c.Polls su) (slot : c.slot = .eos) :
      Move c { c with susp := su, slot := .empty, rs := .nodata .eos }
  | pollErr (c : View) (su : Bool) (polls : c.Polls su) (slot : c.slot = .err) :
      Move c { c with susp := su, slot := .empty, rs := .fetch .fail }
  | pollClosed (c : View) (su : Bool) (polls : c.Polls su) (slot : c.slot = .empty) (closed : c.closed = true) :
      Move c { c with susp := su, rs := .fetch .fail }
  | wait (c : View) (asks : c.Asks) (slot : c.slot = .empty) (opened : c.closed = false) :
      Move c { c with susp := false, rs := .fetch (.wait .untimed) }
  | waitTimed (c : View) (v : Half) (asks : c.Asks) (slot : c.slot = .empty) (opened : c.closed = false)
      (pend : c.pend ≠ []) (some_ : v ≠ 0) :
      Move c { c with susp := false, gapcnt := 0, tsnap := v, rs := .fetch (.wait .timed) }
  | byte (c : View) (b : Byte) (rs : c.rs = .fetch (.byte b)) :
      Move c { c with pend := c.pend ++ [b], rs := .inspect }
  | noDataAll (c : View) (a : NoData) (rs : c.rs = .nodata a) (few : c.pend.length ≤ 4)
      (room : ∀ n, c.params.corrCap = some n → c.corr.length ≤ n → (c.corr ++ c.pend).length ≤ n) :
      Move c { c with
        eosr := c.eosr || a == .eos, nomore := true, susp := true, rs := .inspect
        pend := [], corr := c.corr ++ c.pend }
  | noDataAllOvf (c : View) (a : NoData) (b : List Byte) (v : Byte) (rest : List Byte) (rs : c.rs = .nodata a)
      (pend : c.pend = b ++ v :: rest) (full : c.params.corrCap = some (c.corr ++ b).length) :
      Move c { c with
        eosr := c.eosr || a == .eos, nomore := true, rs := .idle, pend := rest, corr := c.corr ++ b
        ovf := true, rr := failure .overflow }
  | noDataOne (c : View) (a : NoData) (v : Byte) (rest : List Byte) (rs : c.rs = .nodata a)
      (pend : c.pend = v :: rest) (many : 4 < c.pend.length) (room : c.params.corrCap ≠ some c.corr.length) :
      Move c { c with
        eosr := c.eosr || a == .eos, nomore := true, susp := true, rs := .inspect
        pend := rest, corr := c.corr ++ [v] }
  | noDataOneOvf (c : View) (a : NoData) (v : Byte) (rest : List Byte) (rs : c.rs = .nodata a)
      (pend : c.pend = v :: rest) (many : 4 < c.pend.length) (full : c.params.corrCap = some c.corr.length) :
      Move c { c with
        eosr := c.eosr || a == .eos, nomore := true, rs := .idle, pend := rest
        ovf := true, rr := failure .overflow }
  | flush (c : View) (rs : c.rs = .finish) (found : 0 < c.corr.length + c.pend.length) :
      Move c { c with corr := [], pend := [], rs := .idle, rr := success (.invalid (c.corr ++ c.pend)) }
  | null (c : View) (rs : c.rs = .finish) (corr : c.corr = []) (pend : c.pend = []) (eosr : c.eosr = true) :
      Move c { c with rs := .idle, rr := success .null }
  | internal (c : View) (rs : c.rs = .finish) (corr : c.corr = []) (pend : c.pend = []) (eosr : c.eosr = false) :
      Move c { c with rs := .idle, rr := failure .internal }
  | fail (c : View) (rs : c.rs = .fetch .fail) :
      Move c { c with failed := true, rs := .idle, rr := failure .ioFailure }

/-- Nothing is a move. -/
theorem Move.stay (c : View) : Move c c := Move.sys c c.sr c.sysWait c.closed (fun h => h) (fun h => h)

/-- What the encoder and the decoder do to the view: they respond, or wait with the channel as it was. -/
theorem view_encFinish (src dst : Byte) (p : List Byte) (s : State) :
    ∃ sr, view (encFinish src dst p s) = { view s with sr := some sr } := by
  unfold encFinish
  simp only [chkSum_eq]
  exact ⟨_, rfl⟩

theorem view_decFinish (len : BitVec 9) (b : List Byte) (s : State) :
    ∃ sr, view (decFinish len b s) = { view s with sr := some sr } := by
  unfold decFinish decSum
  cases decodeFrame b with
  | error e =>
    refine ⟨{ status := e.status, body := .none }, ?_⟩
    cases e <;> simp only [chkSum_eq] <;> rfl
  | ok f =>
    refine ⟨{ status := .ok, body := .frame f.src f.dst (BitVec.ofNat 8 f.payload.length) f.payload }, ?_⟩
    simp only [chkSum_eq]
    rfl

theorem exec_enc_cases (src dst : Byte) (len : BitVec 9) (s : State) :
    ∃ t, exec (.enc src dst len) s = .next t ∧
      ((∃ sr, view t = { view s with sr := some sr }) ∨ ∃ w, view t = { view s with sysWait := some w }) := by
  simp only [exec, execEnc]
  split
  · exact ⟨_, rfl, .inl ⟨_, rfl⟩⟩
  · split
    · exact ⟨_, rfl, .inr ⟨_, rfl⟩⟩
    · rename_i p u h
      obtain ⟨_, _, _, rfl⟩ := takeData_some h
      obtain ⟨sr, e⟩ := view_encFinish src dst p { s with hdIn := s.hdIn.drop len.toNat }
      exact ⟨_, rfl, .inl ⟨sr, e⟩⟩

theorem exec_dec_cases (len : BitVec 9) (s : State) :
    ∃ t, exec (.dec len) s = .next t ∧
      ((∃ sr, view t = { view s with sr := some sr }) ∨ ∃ w, view t = { view s with sysWait := some w }) := by
  simp only [exec, execDec]
  split
  · exact ⟨_, rfl, .inr ⟨_, rfl⟩⟩
  · rename_i p u h
    obtain ⟨_, _, _, rfl⟩ := takeData_some h
    obtain ⟨sr, e⟩ := view_decFinish len p { s with hdIn := s.hdIn.drop len.toNat }
    exact ⟨_, rfl, .inl ⟨sr, e⟩⟩

/-- A command word decodes to one of the seven commands or to the reserved one. -/
theorem decodeCommand_cases (w : CmdWord) :
    decodeCommand w = .nop ∨ (∃ a b l, decodeCommand w = .enc a b l) ∨ (∃ l, decodeCommand w = .dec l) ∨
    decodeCommand w = .read ∨ decodeCommand w = .close ∨ (∃ n, decodeCommand w = .rdcr n) ∨
    (∃ n v, decodeCommand w = .wrcr n v) ∨ ∃ c, decodeCommand w = .reserved c := by
  unfold decodeCommand
  split
  · rename_i r h
    have := List.mem_of_find?_eq_some h
    simp [commandRows] at this
    rcases this with rfl | rfl | rfl | rfl | rfl | rfl | rfl <;> simp
  · simp

/-- The start of a `READ` that is accepted. -/
theorem move_read (s : State) (h : readReady s = true) :
    ∃ t, exec .read s = .next t ∧ Move (view s) (view t) := by
  have hr : s.rs = .idle ∧ s.rr = none := by simpa [readReady] using h
  simp only [exec, execRead, h, if_true]
  split
  · rename_i f hp
    exact ⟨_, rfl, Move.readHeld (view s) f hr.1 hr.2 hp⟩
  · rename_i hp
    split
    · rename_i hf
      exact ⟨_, rfl, Move.readFailed (view s) hr.1 hr.2 hp hf⟩
    · rename_i hf
      split
      · rename_i ho
        exact ⟨_, rfl, Move.readOvf (view s) hr.1 hr.2 hp (Bool.eq_false_iff.2 hf) ho⟩
      · rename_i ho
        exact ⟨_, rfl, Move.readStart (view s) hr.1 hr.2 hp (Bool.eq_false_iff.2 hf) (Bool.eq_false_iff.2 ho)⟩

/-- A system command on a free system line. -/
theorem move_system (w : CmdWord) (s : State) (hi : decodeCommand w ≠ .read) (h : sysReady s = true) :
    ∃ t, exec (decodeCommand w) s = .next t ∧ Move (view s) (view t) := by
  have hr : s.sr = none ∧ s.sysWait = none := by simpa [sysReady] using h
  have answer : ∀ (x : Option SysResp) (cl : Bool), (s.closed = true → cl = true) →
      Move (view s) { view s with sr := x, closed := cl } := fun x cl hc =>
    Move.sys (view s) x s.sysWait cl (fun _ hw => absurd hr.2 hw) hc
  have waiting : ∀ (x : SysWait) (cl : Bool), (s.closed = true → cl = true) →
      Move (view s) { view s with sysWait := some x, closed := cl } := fun x cl hc =>
    Move.sys (view s) s.sr (some x) cl (fun _ _ => hr.1) hc
  rcases decodeCommand_cases w with k | ⟨a, b, l, k⟩ | ⟨l, k⟩ | k | k | ⟨n, k⟩ | ⟨n, v, k⟩ | ⟨c, k⟩ <;> rw [k]
  · exact ⟨_, rfl, answer _ s.closed id⟩
  · obtain ⟨t, e, ⟨sr, hv⟩ | ⟨x, hv⟩⟩ := exec_enc_cases a b l s
    · exact ⟨t, e, by rw [hv]; exact answer _ s.closed id⟩
    · exact ⟨t, e, by rw [hv]; exact waiting _ s.closed id⟩
  · obtain ⟨t, e, ⟨sr, hv⟩ | ⟨x, hv⟩⟩ := exec_dec_cases l s
    · exact ⟨t, e, by rw [hv]; exact answer _ s.closed id⟩
    · exact ⟨t, e, by rw [hv]; exact waiting _ s.closed id⟩
  · exact absurd k hi
  · simp only [exec, execClose]
    split
    · exact ⟨_, rfl, answer _ s.closed id⟩
    · split
      · rename_i a _
        cases a <;> exact ⟨_, rfl, answer _ true fun _ => rfl⟩
      · exact ⟨_, rfl, waiting _ true fun _ => rfl⟩
  · simp only [exec, execRdcr]
    split <;> exact ⟨_, rfl, answer _ s.closed id⟩
  · simp only [exec, execWrcr, crWrite]
    by_cases h0 : n = 0
    · rw [if_pos h0]; exact ⟨_, rfl, answer _ s.closed id⟩
    · rw [if_neg h0]; exact ⟨_, rfl, answer _ s.closed id⟩
  · exact ⟨_, rfl, answer _ s.closed id⟩

theorem move_host (s : State) : ∃ t, hostTurn s = .next t ∧ Move (view s) (view t) := by
  unfold hostTurn
  split
  · exact ⟨_, rfl, Move.stay _⟩
  · rename_i c rest _
    split
    · rename_i ha
      have hv : view (acceptCommand c rest s) = view s := rfl
      rw [← hv]
      by_cases hi : decodeCommand c.word = .read
      · rw [hi] at ha ⊢
        have ha' : readReady s = true := by simpa [accepted] using ha
        exact move_read (acceptCommand c rest s) ha'
      · have ha' : sysReady s = true := by simpa [accepted, hi] using ha
        exact move_system c.word (acceptCommand c rest s) hi ha'
    · exact ⟨_, rfl, Move.stay _⟩

theorem move_sysLine (s : State) : ∃ t, sysTurn s = .next t ∧ Move (view s) (view t) := by
  unfold sysTurn
  cases hw : s.sysWait with
  | none => exact ⟨_, rfl, Move.stay _⟩
  | some w =>
    have answer : ∀ x : Option SysResp, Move (view s) { view s with sr := x, sysWait := none } := fun x =>
      Move.sys (view s) x none s.closed (fun _ h => absurd rfl h) id
    have again : ∀ x : SysWait, Move (view s) { view s with sysWait := some x } := fun x =>
      Move.sys (view s) s.sr (some x) s.closed (fun h _ => h (by simp [view, hw])) id
    cases w with
    | encData a b l =>
      obtain ⟨t, e, ⟨sr, hv⟩ | ⟨x, hv⟩⟩ := exec_enc_cases a b l { s with sysWait := none }
      · exact ⟨t, e, by rw [hv]; exact answer _⟩
      · exact ⟨t, e, by rw [hv]; exact again _⟩
    | decData l =>
      obtain ⟨t, e, ⟨sr, hv⟩ | ⟨x, hv⟩⟩ := exec_dec_cases l { s with sysWait := none }
      · exact ⟨t, e, by rw [hv]; exact answer _⟩
      · exact ⟨t, e, by rw [hv]; exact again _⟩
    | closeAck =>
      dsimp only
      split
      · rename_i a _
        cases a <;> exact ⟨_, rfl, answer _⟩
      · exact ⟨_, rfl, Move.stay _⟩

/-- A tick ends a timed wait exactly under the conditions of R135. -/
theorem timesOut_iff (s : State) :
    timesOut s = true ↔
      (s.rs = .fetch (.wait .timed) ∧ s.slot = .empty ∧ s.closed = false) ∧ s.gapcnt + 1 = s.tsnap := by
  simp [timesOut, rxReady, and_assoc]

theorem move_tick (s : State) : ∃ t, tickTurn s = .next t ∧ Move (view s) (view t) := by
  unfold tickTurn
  by_cases h : timesOut s = true
  · obtain ⟨hw, hl⟩ := (timesOut_iff s).1 h
    rw [if_pos h]
    simp only [exec, execTmrTick, if_pos hw, if_pos hl]
    exact ⟨_, rfl, Move.lastTick (view s) hw.1 hw.2.1 hw.2.2 hl⟩
  · rw [if_neg h]
    simp only [exec, execTmrTick]
    split
    · rename_i hw
      have hl : ¬ s.gapcnt + 1 = s.tsnap := fun hl => h ((timesOut_iff s).2 ⟨hw, hl⟩)
      rw [if_neg hl]
      exact ⟨_, rfl, Move.tick (view s) hw.1 hw.2.1 hw.2.2 hl⟩
    · exact ⟨_, rfl, Move.stay _⟩

theorem move_transport (s : State) : ∃ t, transportTurn s = .next t ∧ Move (view s) (view t) := by
  unfold transportTurn
  split
  · exact ⟨_, rfl, Move.stay _⟩
  · rename_i k d rest h
    by_cases hx : rxReady s = true
    · have hx' : rxReady { s with linkQ := rest } = true := hx
      simp only [hx, exec, execRxDeposit, hx', if_true]
      simp only [rxReady, Bool.and_eq_true, decide_eq_true_eq, Bool.not_eq_true'] at hx
      exact ⟨_, rfl, Move.deposit (view s) k d rest h hx.1 hx.2⟩
    · rw [if_neg hx]
      exact ⟨_, rfl, Move.stay _⟩
  · rename_i rest h
    simp only [exec, execRxDeposit]
    split
    · rename_i hx
      simp only [rxReady, Bool.and_eq_true, decide_eq_true_eq, Bool.not_eq_true'] at hx
      exact ⟨_, rfl, Move.eos (view s) rest h hx.1 hx.2⟩
    · exact ⟨_, rfl, Move.stay _⟩
  · rename_i rest h
    split
    · exact ⟨_, rfl, Move.gap (view s) rest h⟩
    · exact ⟨_, rfl, Move.stay _⟩
  · rename_i f rest h
    have m := Move.frame (view s) f rest h
    simp only [exec, execFrame]
    split
    · rename_i b hb
      rw [hb] at m
      exact ⟨_, rfl, m⟩
    · rename_i hb
      rw [hb] at m
      exact ⟨_, rfl, m⟩

/-- `RD.FETCH` at the fetch point. -/
theorem move_fetch (s : State) (h : s.rs = .fetch .decide) : Move (view s) (view (fetchDecide s)) := by
  unfold fetchDecide
  split
  · rename_i h1
    exact Move.finish (view s) h h1
  · rename_i h1
    split
    · rename_i h2
      exact Move.eosAgain (view s) h h1 h2
    · rename_i h2
      have he : s.eosr = false := by simpa using h2
      split
      · rename_i h3
        exact Move.timeoutAgain (view s) h h1 he h3.1 h3.2
      · rename_i h3
        have hs : s.susp = false ∨ s.pend = [] := by
          cases hu : s.susp with
          | false => exact .inl rfl
          | true => exact .inr (by simpa [hu] using h3)
        have asks : (view s).Asks := ⟨h, h1, he, hs⟩
        unfold realFetch
        cases hp : pollSlot { s with susp := false } with
        | some t =>
          rcases pollSlot_cases hp with ⟨b, hb, rfl⟩ | ⟨hb, rfl⟩ | ⟨hb, rfl⟩ | ⟨hb, hc, rfl⟩
          · exact Move.pollByte (view s) false b (.inl ⟨asks, rfl⟩) hb
          · exact Move.pollEos (view s) false (.inl ⟨asks, rfl⟩) hb
          · exact Move.pollErr (view s) false (.inl ⟨asks, rfl⟩) hb
          · exact Move.pollClosed (view s) false (.inl ⟨asks, rfl⟩) hb hc
        | none =>
          have hx : s.slot = .empty ∧ s.closed = false := by
            simpa [rxReady] using (pollSlot_none _).1 hp
          unfold fetchMode
          split
          · exact Move.wait (view s) asks hx.1 hx.2
          · rename_i hm
            rw [not_or] at hm
            exact Move.waitTimed (view s) s.cr0 asks hx.1 hx.2 hm.1 hm.2

/-- `RD.FETCH` inside a wait. -/
theorem move_poll (s : State) (m : FetchMode) (h : s.rs = .fetch (.wait m)) :
    Move (view s) (view ((pollSlot s).getD s)) := by
  cases hp : pollSlot s with
  | none => exact Move.stay _
  | some t =>
    rcases pollSlot_cases hp with ⟨b, hb, rfl⟩ | ⟨hb, rfl⟩ | ⟨hb, rfl⟩ | ⟨hb, hc, rfl⟩
    · exact Move.pollByte (view s) s.susp b (.inr ⟨m, h, rfl⟩) hb
    · exact Move.pollEos (view s) s.susp (.inr ⟨m, h, rfl⟩) hb
    · exact Move.pollErr (view s) s.susp (.inr ⟨m, h, rfl⟩) hb
    · exact Move.pollClosed (view s) s.susp (.inr ⟨m, h, rfl⟩) hb hc

/-- `RD.NODATA`. -/
theorem move_noData (s : State) (a : NoData) (h : s.rs = .nodata a) :
    ∃ t, exec (.rdNodata a) s = .next t ∧ Move (view s) (view t) := by
  simp only [exec, execRdNodata, noDataMove]
  have hp : (noDataFlags a s).pend = s.pend := rfl
  rw [hp]
  split
  · rename_i t ht
    split at ht
    · rename_i hf
      rcases moveAll_cases s.pend (noDataFlags a s) rfl with hm | ⟨b, v, r, _, _, hm⟩
      · rw [hm] at ht
        cases ht
        exact ⟨_, rfl, Move.noDataAll (view s) a h hf fun n hn hle =>
          moveAll_room s.pend (noDataFlags a s) n ⟨_, hm⟩ hn hle⟩
      · rw [hm] at ht
        cases ht
    · rename_i hf
      rcases moveOldest_cases (noDataFlags a s) with ⟨_, hm⟩ | ⟨v, r, hv, hc, hm⟩ | ⟨v, r, _, _, hm⟩ <;>
        rw [hm] at ht <;> cases ht
      exact ⟨_, rfl, Move.noDataOne (view s) a v r h hv (Nat.lt_of_not_le hf) hc⟩
  · rename_i t ht
    split at ht
    · rcases moveAll_cases s.pend (noDataFlags a s) rfl with hm | ⟨b, v, r, hb, hc, hm⟩ <;>
        rw [hm] at ht <;> cases ht
      exact ⟨_, rfl, Move.noDataAllOvf (view s) a b v r h hb hc⟩
    · rename_i hf
      rcases moveOldest_cases (noDataFlags a s) with ⟨he, hm⟩ | ⟨v, r, _, _, hm⟩ | ⟨v, r, hv, hc, hm⟩ <;>
        rw [hm] at ht <;> cases ht
      · rw [hp] at he
        simp [he] at hf
      · exact ⟨_, rfl, Move.noDataOneOvf (view s) a v r h hv (Nat.lt_of_not_le hf) hc⟩

/-- The inspection. -/
theorem move_inspect (s : State) (h : s.rs = .inspect) :
    ∃ t, readerTurn s = .next t ∧ Move (view s) (view t) := by
  unfold readerTurn microOp
  rw [h]
  rcases judge_cases s.pend with ⟨j, v, l, r, hp⟩ | ⟨j, v, l, r, hp, h4, hl, hx⟩ | ⟨j, v, l, r, hp, h4, hl⟩ | ⟨j, hn⟩ <;>
    rw [j] <;> simp only [exec]
  · unfold execRdPopshort
    by_cases hc : s.params.corrCap = some s.corr.length
    · rw [moveOldest_full hp hc]
      exact ⟨_, rfl, Move.popOvf (view s) v _ h hp hc⟩
    · rw [moveOldest_room hp hc]
      exact ⟨_, rfl, Move.pop (view s) v _ h hp (by simp) hc⟩
  · obtain ⟨f, hf, hw⟩ := frame_of_window hp h4 hl hx
    have hs : s.pend = wireBytes f ++ s.pend.drop (l.toNat + 2) := by rw [← hw, List.take_append_drop]
    simp only [execRdAccept, candidate_some hp h4 hl, hw, frameOf_wireBytes, chkSum_eq]
    split
    · rename_i hc
      exact ⟨_, rfl, Move.accept (view s) f _ h hf hs hc⟩
    · rename_i hc
      exact ⟨_, rfl, Move.acceptHold (view s) f _ h hf hs hc⟩
  · simp only [execRdPopbad, candidate_some hp h4 hl, chkSum_eq]
    by_cases hc : s.params.corrCap = some s.corr.length
    · rw [moveOldest_full (s := { s with chkacc := xor8 (s.pend.take (l.toNat + 2)) }) hp hc]
      exact ⟨_, rfl, Move.popOvf (view s) v _ h hp hc⟩
    · rw [moveOldest_room (s := { s with chkacc := xor8 (s.pend.take (l.toNat + 2)) }) hp hc]
      exact ⟨_, rfl, Move.pop (view s) v _ h hp (by simp) hc⟩
  · exact ⟨_, rfl, Move.needMore (view s) h hn⟩

theorem move_reader (s : State) : ∃ t, readerTurn s = .next t ∧ Move (view s) (view t) := by
  cases hr : s.rs with
  | idle => exact ⟨s, by simp only [readerTurn, microOp, hr], Move.stay _⟩
  | inspect => exact move_inspect s hr
  | fetch p =>
    cases p with
    | decide =>
      have e : readerTurn s = .next (fetchDecide s) := by simp only [readerTurn, microOp, hr, exec, execRdFetch]
      exact ⟨_, e, move_fetch s hr⟩
    | wait m =>
      by_cases hx : rxReady s = true
      · exact ⟨s, by simp only [readerTurn, microOp, hr, hx, if_true], Move.stay _⟩
      · refine ⟨(pollSlot s).getD s, ?_, move_poll s m hr⟩
        simp only [readerTurn, microOp, hr, if_neg hx, exec, execRdFetch]
    | byte b =>
      have e : readerTurn s = exec (.rdByte b) s := by simp only [readerTurn, microOp, hr]
      rw [e]
      exact ⟨_, rfl, Move.byte (view s) b hr⟩
    | fail =>
      have e : readerTurn s = exec .rdFail s := by simp only [readerTurn, microOp, hr]
      rw [e]
      exact ⟨_, rfl, Move.fail (view s) hr⟩
  | nodata a =>
    have e : readerTurn s = exec (.rdNodata a) s := by simp only [readerTurn, microOp, hr]
    rw [e]
    exact move_noData s a hr
  | finish =>
    by_cases h0 : 0 < s.corr.length + s.pend.length
    · have e : readerTurn s = exec .rdFlush s := by simp only [readerTurn, microOp, hr, if_pos h0]
      rw [e]
      exact ⟨_, rfl, Move.flush (view s) hr h0⟩
    · have hc : s.corr = [] := List.length_eq_zero_iff.1 (by omega)
      have hp : s.pend = [] := List.length_eq_zero_iff.1 (by omega)
      by_cases he : s.eosr = true
      · have e : readerTurn s = exec .rdNull s := by
          simp only [readerTurn, microOp, hr, if_neg h0, if_pos he]
        rw [e]
        exact ⟨_, rfl, Move.null (view s) hr hc hp he⟩
      · have e : readerTurn s = .next (internalFault s) := by
          simp only [readerTurn, microOp, hr, if_neg h0, if_neg he]
        exact ⟨_, e, Move.internal (view s) hr hc hp (Bool.eq_false_iff.2 he)⟩

/-- Everything a step can do: `rst`, or one of the moves. -/
theorem step_cases {s t : State} (h : step s = .next t) :
    (nextTurn s = .rst ∧ t = resetBlock (popTurn s)) ∨ (nextTurn s ≠ .rst ∧ Move (view s) (view t)) := by
  have hv : view (popTurn s) = view s := rfl
  unfold step at h
  rw [← hv]
  generalize popTurn s = u at h ⊢
  cases hn : nextTurn s <;> rw [hn] at h <;> simp only [takeTurn] at h
  case rst => cases h; exact .inl ⟨rfl, rfl⟩
  all_goals refine .inr ⟨by simp, ?_⟩
  case host => obtain ⟨t', e, m⟩ := move_host u; rw [e] at h; cases h; exact m
  case sys => obtain ⟨t', e, m⟩ := move_sysLine u; rw [e] at h; cases h; exact m
  case rsy => obtain ⟨t', e, m⟩ := move_reader u; rw [e] at h; cases h; exact m
  case xport => obtain ⟨t', e, m⟩ := move_transport u; rw [e] at h; cases h; exact m
  case tick => obtain ⟨t', e, m⟩ := move_tick u; rw [e] at h; cases h; exact m
  case hostData => cases h; exact Move.stay _
  case closeAck => cases h; exact Move.stay _
  case takeSys => cases h; exact Move.sys (view u) none u.sysWait u.closed (fun _ _ => rfl) id
  case takeRdr => cases h; exact Move.takeRdr (view u)

end Sys2Proof.Laws
end

