-- ==== Sys2Proof/Tests/Slice0.lean ====
section
/-! SUPPORT. Tests: ill-formed operations are refused, words written out from the encodings of 30_encoding.md decode,
the worked examples of the rules give what the rules say (the expected values are the spec's, named at each test),
and for every statement with hypotheses a concrete state that meets them. -/

namespace Sys2Proof.Tests

open Sys2Proof.Machine

/-- The frame of the spec's examples: `50 03 C8 01 9A`. -/
def sample : Frame := { src := 0x50, dst := 0xC8, payload := [0x01] }

/-- Its wire form, as R110 writes it. -/
def sampleBytes : List Byte := [0x50, 0x03, 0xC8, 0x01, 0x9A]

/-- A block whose reader stands at `r` with these buffers. -/
def block (r : ReaderState) (pend corr : List Byte) : State := { State.reset with rs := r, pend := pend, corr := corr }

/-- A block with these bytes on data-in. -/
def withData (bytes : List Byte) : State := { State.reset with hdIn := bytes }

/-- A block inside a timed wait with `PEND = [50 03]`. -/
def waiting : State := block (.fetch (.wait .timed)) [0x50, 0x03] []

/-- A command of the host script. -/
def command (cmd : Byte) : HostCmd := { word := plainCommand cmd, data := [] }

/-! ## WellFormed: one ill-formed operation for each check -/

theorem test_wf_rdcr : (Instr.rdcr 4).wf = false ∧ (Instr.rdcr 3).wf = true := by decide
theorem test_wf_wrcr : (Instr.wrcr 1 0).wf = false ∧ (Instr.wrcr 0 0xFFFF).wf = true := by decide
theorem test_wf_reserved : (Instr.reserved 0x30).wf = false ∧ (Instr.reserved 0x31).wf = true := by decide
set_option maxRecDepth 4000 in
theorem test_wf_frame :
    (Instr.frame 0 0 (List.replicate 254 0)).wf = false ∧ (Instr.frame 0 0 (List.replicate 253 0)).wf = true := by
  decide

/-! ## Decode: words of R77, R78, R81 and R70 written out -/

theorem test_word_nop : decodeTableWord 8 0b00000000 = some .nop := by decide
theorem test_word_enc : decodeTableWord 8 0b00010000 = some (.enc 0 0 0) := by decide
theorem test_word_dec : decodeTableWord 8 0b00100000 = some (.dec 0) := by decide
theorem test_word_read : decodeTableWord 8 0b00110000 = some .read := by decide
theorem test_word_close : decodeTableWord 8 0b01000000 = some .close := by decide
theorem test_word_rdcr : decodeTableWord 8 0b01010011 = some (.rdcr 3) := by decide
theorem test_word_wrcr : decodeTableWord 8 0b01100000 = some (.wrcr 0 0) := by decide
theorem test_word_reserved :
    decodeTableWord 8 0b01010100 = some (.reserved 0x54) ∧ decodeTableWord 8 0b11111111 = some (.reserved 0xFF) := by
  decide
/-- `kk = 00`, `dddddddd = 72` (R131's example). -/
theorem test_word_deposit :
    decodeTableWord 16 0b0001110010 = some (.rxDeposit .byte 0x72) ∧
    decodeTableWord 16 0b1100000000 = some (.rxDeposit .reserved 0) := by
  decide
set_option maxRecDepth 4000 in
/-- The bytes `50 03 C8 01 9A`, the first in bits 7:0 (R110's example). -/
theorem test_word_frame : decodeTableWord 40 0x9A01C80350 = some (.frame 0x50 0xC8 [0x01]) := by decide
/-- The operands of a command, each where R76 puts it. -/
theorem test_command_operands :
    decodeCommand { cmd := 0x10, a := 0x50, b := 0xC8, len := 1, val := 7 } = .enc 0x50 0xC8 1 ∧
    decodeCommand { cmd := 0x60, a := 1, b := 2, len := 3, val := 100 } = .wrcr 0 100 := by
  decide
theorem test_wire_rejects :
    decodeWire [0x50] = .error .wireTruncated ∧ decodeWire [0x50, 0x01, 0x51] = .error .wireLengthBelowMinimum ∧
    decodeWire [0x50, 0x03, 0xC8, 0x01] = .error .wireTruncated ∧
    decodeWire [0x50, 0x03, 0xC8, 0x01, 0x9B] = .error .wireChecksum ∧
    decode (.wire [0x50, 0x03, 0xC8, 0x01, 0x9A, 0x00]) = .error .wireTrailing := ⟨rfl, rfl, rfl, rfl, rfl⟩
/-- The next step runs the operation of a table word. -/
theorem test_fetch_word :
    step (State.reset.withFetchWord 8 0x31) =
      .next { State.reset with sr := some { status := .badCommand, body := .none } } := rfl

/-! ## One operation on a small state: the worked examples of the rules -/

/-- R102's example. -/
theorem test_chkAcc : (after (exec (.chkAcc 0x01) { State.reset with chkacc := 0x9B }) State.reset).chkacc = 0x9A := by
  decide
theorem test_chkClr : (after (exec .chkClr { State.reset with chkacc := 0x9B }) State.reset).chkacc = 0x00 := by decide
/-- R110's example. -/
theorem test_enc :
    (after (exec (.enc 0x50 0xC8 1) (withData [0x01])) State.reset).sr =
      some { status := .ok, body := .wire 5 [0x50, 0x03, 0xC8, 0x01, 0x9A] } := by decide
/-- R110: an empty payload gives `[src, 02, dst, src xor 02 xor dst]`. -/
theorem test_enc_empty :
    (after (exec (.enc 0x50 0xC8 0) State.reset) State.reset).sr =
      some { status := .ok, body := .wire 4 [0x50, 0x02, 0xC8, 0x9A] } := by decide
/-- R112's example. -/
theorem test_dec :
    (after (exec (.dec 5) (withData [0x50, 0x03, 0xC8, 0x01, 0x9A])) State.reset).sr =
      some { status := .ok, body := .frame 0x50 0xC8 1 [0x01] } := by decide
/-- R113: a wrong length byte and a wrong checksum together report the length. -/
theorem test_dec_order :
    (after (exec (.dec 5) (withData [0x50, 0x04, 0xC8, 0x01, 0x00])) State.reset).sr =
      some { status := .lengthMismatch, body := .none } := by decide
/-- R191's example: `ST_OK` also with `FAILED = 1`. -/
theorem test_nop :
    (after (exec .nop { State.reset with failed := true }) State.reset).sr = some { status := .ok, body := .none } := by
  decide
/-- R192's example. -/
theorem test_rdcr :
    (after (exec (.rdcr 0) State.reset) State.reset).sr = some { status := .ok, body := .value 50 } ∧
    (after (exec (.rdcr 1) State.reset) State.reset).sr = some { status := .ok, body := .value 0x0000 } := by decide
/-- R193's example. -/
theorem test_wrcr : (after (exec (.wrcr 0 100) State.reset) State.reset).cr0 = 100 := by decide
/-- R194. -/
theorem test_reserved :
    (after (exec (.reserved 0x70) State.reset) State.reset).sr = some { status := .badCommand, body := .none } := by
  decide
/-- R141's example. -/
theorem test_close :
    (after (exec .close State.reset) State.reset).sr = some { status := .ok, body := .none } ∧
    (after (exec .close State.reset) State.reset).closed = true := by decide
/-- R152, R162: a `READ` of an idle block begins the scan. -/
theorem test_read : (after (exec .read State.reset) State.reset).rs = .inspect := by decide
/-- R131's example. -/
theorem test_rxDeposit :
    (after (exec (.rxDeposit .byte 0x72) State.reset) State.reset).slot = .byte 0x72 := by decide
/-- R135's example: the wait ends on the 50th tick. -/
theorem test_tmrTick :
    (after (exec .tmrTick { waiting with gapcnt := 49 }) State.reset).rs = .nodata .timeout ∧
    (after (exec .tmrTick { waiting with gapcnt := 48 }) State.reset).rs = .fetch (.wait .timed) := by decide
/-- R85 with R110's example. -/
theorem test_frame :
    (after (exec (.frame 0x50 0xC8 [0x01]) State.reset) State.reset).linkQ =
      [.deposit .byte 0x50, .deposit .byte 0x03, .deposit .byte 0xC8, .deposit .byte 0x01, .deposit .byte 0x9A] := by
  decide
/-- R151's example. -/
theorem test_rdAhead :
    (after (exec .rdAhead { State.reset with pres := some sample }) State.reset).rr =
      some { status := .ok, elem := some (.valid 0x50 0xC8 1 [0x50, 0x03, 0xC8, 0x01, 0x9A]) } := by decide
/-- R153's example. -/
theorem test_rdPopshort :
    (after (exec .rdPopshort (block .inspect [0x11, 0x00, 0x22] [])) State.reset).pend = [0x00, 0x22] ∧
    (after (exec .rdPopshort (block .inspect [0x11, 0x00, 0x22] [])) State.reset).corr = [0x11] := by decide
/-- R154's example. -/
theorem test_rdAccept :
    (after (exec .rdAccept (block .inspect sampleBytes [0xAA])) State.reset).rr =
      some { status := .ok, elem := some (.invalid [0xAA]) } ∧
    (after (exec .rdAccept (block .inspect sampleBytes [0xAA])) State.reset).pres = some sample := by decide
/-- R155's example. -/
theorem test_rdPopbad :
    (after (exec .rdPopbad (block .inspect [0x50, 0x03, 0xC8, 0x01, 0x9B] [])) State.reset).pend =
      [0x03, 0xC8, 0x01, 0x9B] ∧
    (after (exec .rdPopbad (block .inspect [0x50, 0x03, 0xC8, 0x01, 0x9B] [])) State.reset).corr = [0x50] := by decide
/-- R156's example. -/
theorem test_rdNeedmore : microOp (block .inspect [0x72, 0x05, 0xBF, 0x78] []) = .run .rdNeedmore := by decide
/-- R157's example. -/
theorem test_rdFetch :
    (after (exec .rdFetch { block (.fetch .decide) [] [] with susp := true }) State.reset).susp = false ∧
    (after (exec .rdFetch { block (.fetch .decide) [] [] with susp := true }) State.reset).rs =
      .fetch (.wait .untimed) := by decide
/-- R159's example. -/
theorem test_rdByte :
    (after (exec (.rdByte 0x9A) (block (.fetch (.byte 0x9A)) [0x50, 0x03, 0xC8, 0x01] [])) State.reset).pend =
      sampleBytes := by decide
/-- R160's example. -/
theorem test_rdNodata :
    (after (exec (.rdNodata .timeout) (block (.nodata .timeout) [0x72, 0x05, 0xBF, 0x78] [])) State.reset).corr =
      [0x72, 0x05, 0xBF, 0x78] := by decide
/-- R160: `len(PEND) = 5` moves one. -/
theorem test_rdNodata_five :
    (after (exec (.rdNodata .timeout) (block (.nodata .timeout) sampleBytes [])) State.reset).pend =
      [0x03, 0xC8, 0x01, 0x9A] := by decide
/-- R161's example. -/
theorem test_rdFlush :
    (after (exec .rdFlush (block .finish [] [0x72, 0x05, 0xBF, 0x78])) State.reset).rr =
      some { status := .ok, elem := some (.invalid [0x72, 0x05, 0xBF, 0x78]) } := by decide
/-- R162. -/
theorem test_rdNull :
    (after (exec .rdNull { block .finish [] [] with eosr := true }) State.reset).rr =
      some { status := .ok, elem := some .null } := by decide
/-- R163's example. -/
theorem test_rdFail :
    (after (exec .rdFail (block (.fetch .fail) [0x50, 0x03] [])) State.reset).pend = [0x50, 0x03] ∧
    (after (exec .rdFail (block (.fetch .fail) [0x50, 0x03] [])) State.reset).failed = true := by decide
/-- `CORR_CAP = 2` in R166's example, at the moment of `Eos`. -/
def fullBlock : State :=
  { block (.nodata .eos) [0x00] [0x11, 0x00] with params := { corrCap := some 2, drain := .fullDrain } }
/-- R166's example. -/
theorem test_rdOvf :
    (after (exec (.rdNodata .eos) fullBlock) State.reset).rr = some { status := .overflow, elem := none } ∧
    (after (exec (.rdNodata .eos) fullBlock) State.reset).pend = [] ∧
    (after (exec (.rdNodata .eos) fullBlock) State.reset).corr = [0x11, 0x00] ∧
    (after (exec (.rdNodata .eos) fullBlock) State.reset).eosr = true ∧
    (after (exec (.rdNodata .eos) fullBlock) State.reset).susp = false ∧
    (after (exec (.rdNodata .eos) fullBlock) State.reset).ovf = true := by decide

/-! ## Witnesses: for every statement with hypotheses, concrete values that meet all of them, and for every clause a
value at the edge of its range -/

/-- 253 payload bytes, the longest there can be. -/
def longest : List Byte := List.replicate 253 0x07

theorem longest_length : longest.length = 253 := List.length_replicate

theorem witness_DecodeOfEncodeIsTheOperation :
    (Instr.rdcr 3).wf = true ∧ encode (.rdcr 3) = some (.command (plainCommand 0x53)) ∧
    (Instr.frame 0x50 0xC8 [0x01]).wf = true ∧ encode (.frame 0x50 0xC8 [0x01]) = some (.wire sampleBytes) := by decide
theorem witness_WireBytesThatDecodeEncodeBack : decode (.wire sampleBytes) = .ok (.frame 0x50 0xC8 [0x01]) := rfl
theorem witness_WireFrameIsCutAtItsLength :
    (Frame.mk 0x50 0xC8 longest).payload.length ≤ 253 ∧ (Frame.mk 0x50 0xC8 []).payload.length ≤ 253 :=
  ⟨Nat.le_of_eq longest_length, by decide⟩
theorem witness_ChecksumUnitComputesXor8 : [(0x50 : Byte), 0x03, 0xC8].Perm [0xC8, 0x50, 0x03] := by decide
theorem witness_ChecksumFormsAgree : sampleBytes ≠ [] ∧ [(0x00 : Byte)] ≠ [] := by decide
theorem witness_WhatTheChecksumDetects :
    (4 < sampleBytes.length ∧ sampleBytes[4]? ≠ some 0x9B) ∧
    (0 < sampleBytes.length ∧ 4 < sampleBytes.length ∧ 0 ≠ 4) ∧ sampleBytes.Perm sampleBytes.reverse := by decide
theorem witness_EncAnswersTheWireBytes :
    ((253 : BitVec 9).toNat ≤ 253 ∧ (253 : BitVec 9).toNat ≤ (withData longest).hdIn.length) ∧
    ((0 : BitVec 9).toNat ≤ 253 ∧ (0 : BitVec 9).toNat ≤ State.reset.hdIn.length) := by
  simp [withData, longest_length]
theorem witness_EncRefusesALongPayload : 253 < (254 : BitVec 9).toNat ∧ 253 < (511 : BitVec 9).toNat := by decide
theorem witness_EncAndDecWaitForTheirBytes :
    (withData [0x01]).hdIn.length < (2 : BitVec 9).toNat ∧ (2 : BitVec 9).toNat ≤ 253 ∧
    State.reset.hdIn.length < (511 : BitVec 9).toNat := by decide
theorem witness_DecRaisesTheFirstFailingCheck_tooShort :
    (4 : BitVec 9).toNat ≤ (withData [0x50, 0x02, 0xC8, 0x9A]).hdIn.length ∧ (4 : BitVec 9).toNat < 5 := by decide
theorem witness_DecRaisesTheFirstFailingCheck_lengthMismatch :
    (5 : BitVec 9).toNat ≤ (withData [0x50, 0x04, 0xC8, 0x01, 0x00]).hdIn.length ∧
    ((withData [0x50, 0x04, 0xC8, 0x01, 0x00]).hdIn.take (5 : BitVec 9).toNat)[1]? = some 0x04 ∧
    5 ≤ (5 : BitVec 9).toNat ∧ (((0x04 : Byte).toNat : Int) - 2 + 4 ≠ ((5 : BitVec 9).toNat : Int)) := by decide
theorem witness_DecRaisesTheFirstFailingCheck_checksumMismatch :
    (5 : BitVec 9).toNat ≤ (withData [0x50, 0x03, 0xC8, 0x01, 0x9B]).hdIn.length ∧
    ((withData [0x50, 0x03, 0xC8, 0x01, 0x9B]).hdIn.take (5 : BitVec 9).toNat)[1]? = some 0x03 ∧
    ((withData [0x50, 0x03, 0xC8, 0x01, 0x9B]).hdIn.take (5 : BitVec 9).toNat)[(5 : BitVec 9).toNat - 1]? =
      some 0x9B ∧
    5 ≤ (5 : BitVec 9).toNat ∧ ((0x03 : Byte).toNat : Int) - 2 + 4 = ((5 : BitVec 9).toNat : Int) ∧
    xor8 (((withData [0x50, 0x03, 0xC8, 0x01, 0x9B]).hdIn.take (5 : BitVec 9).toNat).take
      ((5 : BitVec 9).toNat - 1)) ≠ 0x9B := by decide
theorem witness_DecReturnsTheFrame :
    (withData (sampleBytes ++ [0xFF])).hdIn = 0x50 :: 0x03 :: 0xC8 :: ([0x01] ++ 0x9A :: [0xFF]) ∧
    (5 : BitVec 9).toNat = [(0x01 : Byte)].length + 4 ∧ 5 ≤ (5 : BitVec 9).toNat ∧
    ((0x03 : Byte).toNat : Int) - 2 + 4 = ((5 : BitVec 9).toNat : Int) ∧
    xor8 (0x50 :: 0x03 :: 0xC8 :: [0x01]) = 0x9A := by decide
theorem witness_CodecRoundTrip :
    (1 ≤ sample.payload.length ∧ sample.payload.length ≤ 253) ∧
    (1 ≤ (Frame.mk 0 0 longest).payload.length ∧ (Frame.mk 0 0 longest).payload.length ≤ 253) ∧
    (Frame.mk 0x50 0xC8 []).payload = [] ∧ decodeFrame sampleBytes = .ok sample := by
  refine ⟨by decide, ?_, rfl, rfl⟩
  show 1 ≤ longest.length ∧ longest.length ≤ 253
  rw [longest_length]
  decide
theorem witness_RoundTripThroughTheCommands :
    (1 ≤ (1 : BitVec 9).toNat ∧ (1 : BitVec 9).toNat ≤ 253 ∧ (1 : BitVec 9).toNat ≤ (withData [0x01]).hdIn.length) ∧
    (withData (sampleBytes ++ [0xFF])).hdIn = sampleBytes ++ [0xFF] := by decide
theorem witness_RoundTripThroughTheCommands_longest :
    1 ≤ (253 : BitVec 9).toNat ∧ (253 : BitVec 9).toNat ≤ 253 ∧
    (253 : BitVec 9).toNat ≤ (withData longest).hdIn.length := by simp [withData, longest_length]
theorem witness_EncodedFramesSumToZero :
    ((0 : BitVec 9).toNat ≤ 253 ∧ (0 : BitVec 9).toNat ≤ State.reset.hdIn.length) ∧
    ((253 : BitVec 9).toNat ≤ 253 ∧ (253 : BitVec 9).toNat ≤ (withData longest).hdIn.length) := by
  simp [withData, longest_length]
theorem witness_SingleBitErrorsAreDetected :
    (1 < sampleBytes.length ∧ 4 < sampleBytes.length) ∧ decodeFrame sampleBytes = .ok sample ∧ 0 < 8 ∧ 7 < 8 :=
  ⟨by decide, rfl, by decide⟩
theorem witness_TheTwoFloors : [(0x50 : Byte), 0x02, 0xC8, 0x9A].length < 5 ∧ (Frame.mk 0 0 []).payload.length ≤ 253 := by
  decide
theorem witness_RdcrAnswersTheRegister : 3 < (4 : BitVec 4).toNat ∧ 3 < (15 : BitVec 4).toNat := by decide
/-- R28: `STATUS` bits 10:8 in each value of `RS`. -/
theorem witness_StatusWordFields :
    statusWord State.reset = 0x0000 ∧ statusWord (block .inspect [] []) = 0x0100 ∧
    statusWord waiting = 0x0200 ∧ statusWord (block (.fetch .fail) [] []) = 0x0200 ∧
    statusWord (block (.nodata .eos) [] []) = 0x0300 ∧ statusWord (block .finish [] []) = 0x0400 := by decide
theorem witness_CountRegisters_pend : (block .inspect (List.replicate 257 0x00) []).pend.length ≤ 257 :=
  Nat.le_of_eq List.length_replicate
theorem witness_CountRegisters_idle :
    Inv State.reset ∧ State.reset.rs = .idle ∧ State.reset.failed = false ∧ State.reset.ovf = false := by
  refine ⟨?_, rfl, rfl, rfl⟩
  constructor <;> simp [State.reset, Config.Params.default]
theorem witness_WrcrWritesOnlyTheTimeout : (1 : BitVec 4) ≠ 0 ∧ (15 : BitVec 4) ≠ 0 := by decide
theorem witness_ReservedCommandsAreRefused :
    7 ≤ (0x70 : Byte).toNat / 16 ∧ ((0x31 : Byte).toNat / 16 ≤ 4 ∧ (0x31 : Byte).toNat % 16 ≠ 0) ∧
    ((0x54 : Byte).toNat / 16 = 5 ∧ 4 ≤ (0x54 : Byte).toNat % 16) ∧
    ((0x61 : Byte).toNat / 16 = 6 ∧ (0x61 : Byte).toNat % 16 ≠ 0) := by decide
theorem witness_CodecAndReaderDoNotInterfere :
    State.reset.hdIn = waiting.hdIn ∧ State.reset ≠ waiting ∧ sysReady State.reset = true ∧
    sysReady waiting = true := by decide
theorem witness_DepositFillsTheEmptySlot :
    (State.reset.slot = .empty ∧ State.reset.closed = false) ∧
    ({ State.reset with slot := .byte 0x01 } : State).slot ≠ .empty ∧
    ({ State.reset with closed := true } : State).closed = true := by decide
theorem witness_TickCountsATimedWait :
    (waiting.rs = .fetch (.wait .timed) ∧ waiting.slot = .empty ∧ waiting.closed = false) ∧
    waiting.gapcnt + 1 ≠ waiting.tsnap ∧
    ({ waiting with gapcnt := 49 } : State).gapcnt + 1 = ({ waiting with gapcnt := 49 } : State).tsnap ∧
    State.reset.rs ≠ .fetch (.wait .timed) := by decide
theorem witness_TimedWaitEndsOnItsLastTick :
    waiting.rs = .fetch (.wait .timed) ∧ waiting.slot = .empty ∧ waiting.closed = false ∧
    waiting.gapcnt.toNat < waiting.tsnap.toNat ∧ 49 < waiting.tsnap.toNat - waiting.gapcnt.toNat := by decide
theorem witness_CloseClosesTheIngressOnce :
    (State.reset.closed = false ∧ State.reset.closeAns = some .ok) ∧
    ({ State.reset with closeAns := some .err } : State).closeAns = some .err ∧
    ({ State.reset with closeAns := none } : State).closeAns = none ∧
    ({ State.reset with closed := true } : State).closed = true := by decide
theorem witness_FrameStandsForItsBytes : longest.length ≤ 253 ∧ 253 < (0x07 :: longest).length := by
  simp [longest_length]
theorem witness_ReadStarts :
    (State.reset.rs = .idle ∧ State.reset.rr = none) ∧
    ({ State.reset with pres := some sample } : State).pres = some sample ∧
    (State.reset.pres = none ∧ ({ State.reset with failed := true } : State).failed = true) ∧
    (State.reset.failed = false ∧ ({ State.reset with ovf := true } : State).ovf = true) ∧
    State.reset.ovf = false := by decide
theorem witness_RdAheadReturnsTheHeldFrame :
    ({ State.reset with pres := some sample } : State).pres = some sample ∧
    ({ State.reset with pres := some sample } : State).rs = .idle ∧
    ({ State.reset with pres := some sample } : State).rr = none := by decide
theorem witness_RejectedCandidatesLoseTheirFrontByte :
    ((block .inspect [0x11, 0x00, 0x22] []).pend = 0x11 :: [0x00, 0x22] ∧
      (block .inspect [0x11, 0x00, 0x22] []).params.corrCap ≠ some (block .inspect [0x11, 0x00, 0x22] []).corr.length) ∧
    ((block .inspect [0x50, 0x02, 0xC8, 0x9B] []).pend = 0x50 :: 0x02 :: [0xC8, 0x9B] ∧
      4 ≤ (0x02 : Byte).toNat + 2 ∧
      (0x02 : Byte).toNat + 2 ≤ (block .inspect [0x50, 0x02, 0xC8, 0x9B] []).pend.length) := by decide
theorem witness_RdAcceptTakesTheCandidate :
    ((block .inspect sampleBytes []).pend = 0x50 :: 0x03 :: 0xC8 :: ([0x01] ++ 0x9A :: []) ∧
      (0x03 : Byte).toNat + 2 = [(0x01 : Byte)].length + 4 ∧ (block .inspect sampleBytes []).corr = []) ∧
    ((block .inspect [0x50, 0x02, 0xC8, 0x9A] [0xAA]).pend = 0x50 :: 0x02 :: 0xC8 :: ([] ++ 0x9A :: []) ∧
      (0x02 : Byte).toNat + 2 = ([] : List Byte).length + 4 ∧
      (block .inspect [0x50, 0x02, 0xC8, 0x9A] [0xAA]).corr ≠ []) := by decide
theorem witness_InspectionPicksExactlyOneRule :
    microOp (block .inspect [0x11, 0x01] []) = .run .rdPopshort ∧
    microOp (block .inspect [0x00, 0x02, 0x00, 0x02] []) = .run .rdAccept ∧
    microOp (block .inspect [0x00, 0x02, 0x00, 0x03] []) = .run .rdPopbad ∧
    microOp (block .inspect [0x00, 0x02, 0x00] []) = .run .rdNeedmore ∧
    microOp (block .inspect [0x00] []) = .run .rdNeedmore := by decide
theorem witness_RdFetchWithoutAsking :
    (({ block (.fetch .decide) [] [] with nomore := true } : State).nomore = true ∧
      ({ block (.fetch .decide) [] [] with nomore := true } : State).pend = []) ∧
    ((block (.fetch .decide) [] []).nomore = false ∧
      ({ block (.fetch .decide) [] [] with eosr := true } : State).eosr = true) ∧
    (({ block (.fetch .decide) [0x50] [] with nomore := true } : State).params.drain = .fullDrain ∧
      (block (.fetch .decide) [0x50] []).pend ≠ [] ∧ (block (.fetch .decide) [0x50] []).eosr = false ∧
      ({ block (.fetch .decide) [0x50] [] with susp := true } : State).susp = true) := by decide
theorem witness_RdFetchAsksTheSlot :
    ((block (.fetch .decide) [0x50] []).nomore = false ∧ (block (.fetch .decide) [0x50] []).eosr = false ∧
      (block (.fetch .decide) [0x50] []).susp = false) ∧
    (({ block (.fetch .decide) [] [] with susp := true } : State).pend = []) ∧
    ({ block (.fetch .decide) [0x50] [] with slot := .byte 0x03 } : State).slot = .byte 0x03 ∧
    ({ block (.fetch .decide) [0x50] [] with slot := .eos } : State).slot = .eos ∧
    ({ block (.fetch .decide) [0x50] [] with slot := .err } : State).slot = .err ∧
    (({ block (.fetch .decide) [0x50] [] with closed := true } : State).slot = .empty ∧
      ({ block (.fetch .decide) [0x50] [] with closed := true } : State).closed = true) ∧
    ((block (.fetch .decide) [0x50] []).slot = .empty ∧ (block (.fetch .decide) [0x50] []).closed = false ∧
      (block (.fetch .decide) [0x50] []).pend ≠ [] ∧ (block (.fetch .decide) [0x50] []).cr0 ≠ 0) ∧
    ({ block (.fetch .decide) [0x50] [] with cr0 := 0 } : State).cr0 = 0 := by decide
theorem witness_RdFetchInAWait :
    waiting.rs = .fetch (.wait .timed) ∧ (block (.fetch (.wait .untimed)) [] []).rs = .fetch (.wait .untimed) ∧
    ({ waiting with slot := .byte 0xC8 } : State).slot = .byte 0xC8 ∧ ({ waiting with slot := .eos } : State).slot = .eos ∧
    ({ waiting with slot := .err } : State).slot = .err ∧
    (waiting.slot = .empty ∧ ({ waiting with closed := true } : State).closed = true) ∧ waiting.closed = false := by
  decide
theorem witness_RdNodataMovesAllOrTheOldest_all :
    (block (.nodata .timeout) [0x72, 0x05, 0xBF, 0x78] []).pend.length ≤ 4 ∧
    ∀ k, k < (block (.nodata .timeout) [0x72, 0x05, 0xBF, 0x78] []).pend.length →
      (block (.nodata .timeout) [0x72, 0x05, 0xBF, 0x78] []).params.corrCap ≠
        some ((block (.nodata .timeout) [0x72, 0x05, 0xBF, 0x78] []).corr.length + k) := by
  refine ⟨by decide, fun k _ => ?_⟩
  simp [block, State.reset, Config.Params.default]
theorem witness_RdNodataMovesAllOrTheOldest_oldest :
    (block (.nodata .timeout) sampleBytes []).pend = 0x50 :: [0x03, 0xC8, 0x01, 0x9A] ∧
    4 < (block (.nodata .timeout) sampleBytes []).pend.length ∧
    (block (.nodata .timeout) sampleBytes []).params.corrCap ≠
      some (block (.nodata .timeout) sampleBytes []).corr.length := by decide
theorem witness_OverflowLosesThePushedByte :
    (fullBlock.pend = 0x00 :: [] ∧ fullBlock.params.corrCap = some fullBlock.corr.length) ∧
    (({ fullBlock with pend := [0x50, 0x02, 0xC8, 0x9B] } : State).pend = 0x50 :: 0x02 :: [0xC8, 0x9B] ∧
      4 ≤ (0x02 : Byte).toNat + 2 ∧
      (0x02 : Byte).toNat + 2 ≤ ({ fullBlock with pend := [0x50, 0x02, 0xC8, 0x9B] } : State).pend.length) ∧
    (({ fullBlock with pend := [0x01, 0x02, 0x03], corr := [0x11] } : State).pend = [0x01] ++ 0x02 :: [0x03] ∧
      ({ fullBlock with pend := [0x01, 0x02, 0x03], corr := [0x11] } : State).pend.length ≤ 4 ∧
      ({ fullBlock with pend := [0x01, 0x02, 0x03], corr := [0x11] } : State).params.corrCap =
        some (({ fullBlock with pend := [0x01, 0x02, 0x03], corr := [0x11] } : State).corr.length +
          [(0x01 : Byte)].length)) ∧
    (({ fullBlock with pend := sampleBytes } : State).pend = 0x50 :: [0x03, 0xC8, 0x01, 0x9A] ∧
      4 < ({ fullBlock with pend := sampleBytes } : State).pend.length ∧
      ({ fullBlock with pend := sampleBytes } : State).params.corrCap =
        some ({ fullBlock with pend := sampleBytes } : State).corr.length) := by decide
theorem witness_RdFailIsFinal :
    (block (.fetch .fail) [0x50, 0x03] []).rs = .fetch .fail ∧
    (({ State.reset with failed := true } : State).failed = true ∧
      ({ State.reset with failed := true } : State).pres = none ∧
      ({ State.reset with failed := true } : State).rs = .idle ∧
      ({ State.reset with failed := true } : State).rr = none) := by decide
theorem witness_FailedGuardsAreInternalFaults :
    State.reset.pend = [] ∧ (block .inspect [0x50] []).pend.length < 2 ∧
    ((block .inspect [0x00, 0x02, 0x00] []).pend = 0x00 :: 0x02 :: [0x00] ∧
      (block .inspect [0x00, 0x02, 0x00] []).pend.length < (0x02 : Byte).toNat + 2) ∧
    ((block .inspect [0x11, 0x01, 0x10] []).pend = 0x11 :: 0x01 :: [0x10] ∧ (0x01 : Byte).toNat + 2 < 4 ∧
      ¬ (block .inspect [0x11, 0x01, 0x10] []).pend.length < (0x01 : Byte).toNat + 2) ∧
    State.reset.pres = none := by decide
theorem witness_RecognisedFramesAreReencoded :
    microOp (block .inspect sampleBytes []) = .run .rdAccept ∧
    (block .inspect sampleBytes []).corr = [] ∧
    microOp (block .inspect sampleBytes [0xAA]) = .run .rdAccept ∧ (block .inspect sampleBytes [0xAA]).corr ≠ [] := by
  decide
/-- A block in a `READ`, with a `NOP` on the command port. -/
def withNop : State := { waiting with hostQ := [command 0x00], sched := [.host] }
theorem witness_StepRunsTheHostCommand :
    nextTurn withNop = .host ∧ withNop.hostQ = command 0x00 :: [] ∧
    decode (.command (command 0x00).word) = .ok .nop ∧ accepted .nop withNop = true := ⟨rfl, rfl, rfl, rfl⟩
/-- The same with a `READ`, which is not accepted while one is in progress. -/
theorem witness_StepRunsTheHostCommand_refused :
    nextTurn { withNop with hostQ := [command 0x30] } = .host ∧
    decode (.command (command 0x30).word) = .ok .read ∧
    accepted .read { withNop with hostQ := [command 0x30] } = false := ⟨rfl, rfl, rfl⟩
/-- R190, R254: each reason by itself for which a command waits, and no command supplies bytes by having them. -/
theorem witness_StepRunsTheHostCommand_acceptance :
    accepted .read State.reset = true ∧
    accepted .read { State.reset with rr := some { status := .ok, elem := some .null } } = false ∧
    accepted .close { State.reset with sr := some { status := .ok, body := .none } } = false ∧
    accepted .close { State.reset with sysWait := some (.decData 1) } = false ∧ accepted .close waiting = true ∧
    suppliedData (.enc 0 0 253) [0x01] = [0x01] ∧ suppliedData (.enc 0 0 254) [0x01] = [] ∧
    suppliedData (.reserved 0x31) [0x01] = [] := by decide
/-- No command on the port; data-in bytes; a response offered on each channel, and none. -/
theorem witness_StepRunsTheHostCommand_turns :
    (nextTurn State.reset = .host ∧ State.reset.hostQ = []) ∧
    nextTurn { withData [0x50] with sched := [.hostData [0x03]] } = .hostData [0x03] ∧
    (nextTurn { State.reset with sr := some { status := .ok, body := .none } } = .takeSys ∧
      nextTurn { State.reset with sched := [.takeSys] } = .takeSys ∧ State.reset.sr = none) ∧
    (nextTurn { State.reset with rr := some { status := .ok, elem := some .null } } = .takeRdr ∧
      nextTurn { State.reset with sched := [.takeRdr] } = .takeRdr ∧ State.reset.rr = none) := by decide
/-- R84: after a blocked `READ` the next command is not issued, and it is while no `READ` is in progress. -/
theorem test_blocked_read_holds_the_host :
    nextTurn { block (.fetch (.wait .untimed)) [] [] with hostQ := [command 0x00] } = .rsy ∧
    nextTurn { State.reset with hostQ := [command 0x00] } = .host := by decide
theorem witness_StepRunsTheReadersMicroOperation :
    (nextTurn (block .inspect sampleBytes []) = .rsy ∧
      microOp (block .inspect sampleBytes []) = .run .rdAccept) ∧
    (nextTurn { waiting with sched := [.rsy] } = .rsy ∧ microOp { waiting with sched := [.rsy] } = .wait) ∧
    (nextTurn (block .finish [] []) = .rsy ∧ microOp (block .finish [] []) = .internalFault) := by decide
theorem witness_StepRunsTheReadersMicroOperation_selection :
    State.reset.rs = .idle ∧ (block (.fetch .decide) [] []).rs = .fetch .decide ∧
    (waiting.rs = .fetch (.wait .timed) ∧ waiting.slot = .empty ∧ waiting.closed = false) ∧
    ({ waiting with slot := .eos } : State).slot ≠ .empty ∧ ({ waiting with closed := true } : State).closed = true ∧
    (block (.fetch (.byte 0xFF)) [] []).rs = .fetch (.byte 0xFF) ∧ (block (.fetch .fail) [] []).rs = .fetch .fail ∧
    (block (.nodata .timeout) [] []).rs = .nodata .timeout ∧ (block (.nodata .eos) [] []).rs = .nodata .eos ∧
    (microOp (block .finish [0x50] []) = .run .rdFlush ∧ microOp (block .finish [] [0x50]) = .run .rdFlush) ∧
    microOp { block .finish [] [] with eosr := true } = .run .rdNull := by decide
theorem witness_StepRunsDepositsTicksAndWaitingCommands_link :
    (nextTurn { waiting with linkQ := [.deposit .byte 0xC8] } = .xport ∧ waiting.slot = .empty ∧
      waiting.closed = false) ∧
    (nextTurn { waiting with linkQ := [.deposit .byte 0xC8], slot := .byte 0x01, sched := [.xport] } = .xport ∧
      ({ waiting with slot := .byte 0x01 } : State).slot ≠ .empty) ∧
    (nextTurn { waiting with linkQ := [.deposit .byte 0xC8], closed := true, sched := [.xport] } = .xport ∧
      ({ waiting with closed := true } : State).closed = true) ∧
    nextTurn { waiting with linkQ := [.frame sample] } = .xport ∧
    (nextTurn { waiting with gapcnt := 49 } = .tick ∧ waiting.linkQ.head? ≠ some .gap) ∧
    (nextTurn { waiting with sched := [.xport] } = .xport ∧ waiting.linkQ = []) := by decide
/-- `EOS` with a free slot, a full one, and a closed ingress. -/
theorem witness_StepRunsDepositsTicksAndWaitingCommands_eos :
    nextTurn { waiting with linkQ := [.eos] } = .xport ∧
    (nextTurn { waiting with linkQ := [.eos], slot := .eos, sched := [.xport] } = .xport ∧
      ({ waiting with slot := .eos } : State).slot ≠ .empty) ∧
    nextTurn { waiting with linkQ := [.eos], closed := true, sched := [.xport] } = .xport := by decide
/-- R84: `EOS` stays, so a `READ` after `rst` is answered `Eos` again. -/
theorem test_eos_stays :
    (after (step { waiting with linkQ := [.eos] }) waiting).slot = .eos ∧
    (after (step { waiting with linkQ := [.eos] }) waiting).linkQ = [.eos] := by decide
/-- R137 on `72 GAP 05`: with `72` in the slot the pause stays for the timed fetch, and its last tick drops it. -/
theorem test_gap_meets_the_timed_fetch :
    (after (step { block (.fetch (.wait .untimed)) [] [] with
      linkQ := [.gap], slot := .byte 0x72, sched := [.xport] }) waiting).linkQ = [.gap] ∧
    (after (step { waiting with linkQ := [.gap], gapcnt := 49 }) waiting).linkQ = [] ∧
    (after (step { waiting with linkQ := [.gap], gapcnt := 49 }) waiting).rs = .nodata .timeout := by decide
/-- A pause met by an untimed wait, by a timed one, by a result in the slot, by no wait, and by a last tick. -/
theorem witness_StepRunsDepositsTicksAndWaitingCommands_gap :
    nextTurn { block (.fetch (.wait .untimed)) [] [] with linkQ := [.gap] } = .xport ∧
    nextTurn { block (.fetch (.wait .untimed)) [] [] with linkQ := [.gap], slot := .eos, sched := [.xport] } = .xport ∧
    (nextTurn { waiting with linkQ := [.gap], gapcnt := 49 } = .tick ∧
      ({ waiting with gapcnt := 49 } : State).gapcnt + 1 = ({ waiting with gapcnt := 49 } : State).tsnap) ∧
    (nextTurn { waiting with linkQ := [.gap] } = .tick ∧ waiting.gapcnt + 1 ≠ waiting.tsnap) ∧
    (nextTurn { waiting with linkQ := [.gap], sched := [.xport] } = .xport ∧ waiting.rs ≠ .fetch (.wait .untimed)) ∧
    (nextTurn { State.reset with linkQ := [.gap], sched := [.xport] } = .xport ∧
      State.reset.rs ≠ .fetch (.wait .untimed)) := by decide
theorem witness_StepRunsDepositsTicksAndWaitingCommands_system :
    (nextTurn { State.reset with sysWait := some (.encData 0x50 0xC8 1), sched := [.sys] } = .sys) ∧
    (nextTurn { withData sampleBytes with sysWait := some (.decData 5) } = .sys) ∧
    (nextTurn { State.reset with sysWait := some .closeAck } = .sys ∧ State.reset.closeAns = some .ok) ∧
    (nextTurn { State.reset with sysWait := some .closeAck, closeAns := some .err } = .sys) ∧
    (nextTurn { State.reset with sysWait := some .closeAck, closeAns := none } = .sys) ∧
    (nextTurn { State.reset with sched := [.sys] } = .sys ∧ State.reset.sysWait = none) ∧
    nextTurn { State.reset with sched := [.closeAck .err] } = .closeAck .err := by decide
theorem witness_ResetGivesTheTableValues : nextTurn { waiting with sched := [.rst] } = .rst := by decide

/-- A block that meets the invariant with bytes in both buffers and a byte in the slot. -/
def busy : State := { block (.fetch .decide) [0x50, 0x03] [0xAA] with slot := .byte 0xC8 }
theorem busy_inv : Inv busy := by
  constructor <;> simp [busy, block, State.reset, Config.Params.default, FetchPhase.real]
/-- A block about to accept a frame. -/
def accepting : State := block .inspect sampleBytes [0xAA]
theorem accepting_inv : Inv accepting := by
  constructor <;> simp [accepting, block, State.reset, Config.Params.default, sampleBytes]

theorem witness_InvariantKeptByEveryStep : Inv busy ∧ ∃ t, step busy = .next t ∧ t.rs = .fetch (.byte 0xC8) :=
  ⟨busy_inv, _, rfl, rfl⟩
theorem witness_EveryStepConservesTheStream :
    Inv accepting ∧ nextTurn accepting ≠ .rst ∧ ∃ t, step accepting = .next t ∧ t.ovf = accepting.ovf ∧
      t.rr = some { status := .ok, elem := some (.invalid [0xAA]) } :=
  ⟨accepting_inv, by decide, _, rfl, rfl, rfl⟩
theorem witness_OnlyTheReaderWritesItsBuffers :
    (nextTurn withNop ≠ .rst ∧ nextTurn withNop ≠ .rsy ∧ ∃ t, step withNop = .next t) ∧
    (nextTurn { State.reset with pres := some sample, hostQ := [command 0x30] } = .host ∧
      accepted .read { State.reset with pres := some sample, hostQ := [command 0x30] } = true ∧
      ∃ t, step { State.reset with pres := some sample, hostQ := [command 0x30] } = .next t ∧ t.pres = none) ∧
    nextTurn accepting = .rsy ∧ ∃ t, step accepting = .next t ∧ t.pres = some sample :=
  ⟨⟨by decide, by decide, _, rfl⟩, ⟨by decide, by decide, _, rfl, rfl⟩, by decide, _, rfl, rfl⟩
theorem witness_StickyFlagsFallOnlyAtReset :
    nextTurn { withNop with failed := true, ovf := true, eosr := true, closed := true } ≠ .rst ∧
    ∃ t, step { withNop with failed := true, ovf := true, eosr := true, closed := true } = .next t ∧
      t.failed = true ∧ t.ovf = true ∧ t.eosr = true ∧ t.closed = true :=
  ⟨by decide, _, rfl, rfl, rfl, rfl, rfl⟩
theorem witness_InternalFaultIsUnreachable :
    Inv busy ∧ busy.rr ≠ some { status := .internal, elem := none } ∧ ∃ t, step busy = .next t :=
  ⟨busy_inv, by decide, _, rfl⟩
theorem witness_ReadsThatSucceedLeaveCorrEmpty :
    Inv accepting ∧ accepting.rr = none ∧ ∃ t, step accepting = .next t ∧
      t.rr = some { status := .ok, elem := some (.invalid [0xAA]) } := ⟨accepting_inv, rfl, _, rfl, rfl⟩
/-- A block whose stream has ended, with a byte in the slot. -/
def ended : State := { block (.fetch .decide) [0x50] [] with eosr := true, slot := .byte 0x03 }
theorem witness_EndOfStreamIsNeverAskedAgain :
    Inv ended ∧ nextTurn ended ≠ .rst ∧ ended.eosr = true ∧ ended.slot ≠ .empty ∧ ∃ t, step ended = .next t := by
  refine ⟨?_, by decide, rfl, by decide, _, rfl⟩
  constructor <;> simp [ended, block, State.reset, Config.Params.default, FetchPhase.real]
theorem witness_ControlStateTransitions :
    nextTurn accepting ≠ .rst ∧ ∃ t, step accepting = .next t ∧ t.rs.code ≠ accepting.rs.code :=
  ⟨by decide, _, rfl, by decide⟩

end Sys2Proof.Tests
end

/-! SUPPORT. The read-only views of the state: STATUS cut into its flags and its `RS` field, PENDN and CORRN as
numbers (R34 to R36). -/

namespace Sys2Proof.Proofs

open Sys2Proof.Machine

/-! ## `CR1` STATUS (R34) -/

/-- STATUS built up from bit 15 down: the control state at the top, then one flag after the other. -/
theorem statusWord_eq_concat (s : State) :
    statusWord s = ((((((((((0 : BitVec 5) ++ s.rs.code).concat s.slotf).concat s.nomore).concat s.closed).concat
      s.ovf).concat s.failed).concat s.presv).concat s.susp).concat s.eosr : BitVec 16) := rfl

theorem statusWord_flags (s : State) :
    (statusWord s).getLsbD 0 = s.eosr ∧ (statusWord s).getLsbD 1 = s.susp ∧
    (statusWord s).getLsbD 2 = s.pres.isSome ∧ (statusWord s).getLsbD 3 = s.failed ∧
    (statusWord s).getLsbD 4 = s.ovf ∧ (statusWord s).getLsbD 5 = s.closed ∧
    (statusWord s).getLsbD 6 = s.nomore ∧ (statusWord s).getLsbD 7 = decide (s.slot ≠ .empty) := by
  rw [statusWord_eq_concat]
  simp [State.presv, State.slotf, bne, BEq.beq]

/-- Above the eight flags stands the code of `RS`, with zeros over it. -/
theorem statusWord_getLsbD_add_eight (s : State) (i : Nat) :
    (statusWord s).getLsbD (i + 8) = ((0 : BitVec 5) ++ s.rs.code).getLsbD i := by
  rw [statusWord_eq_concat]
  simp

@[simp] theorem statusWord_rs (s : State) : (statusWord s).extractLsb' 8 3 = s.rs.code := by
  ext i hi
  rw [BitVec.getElem_extractLsb', Nat.add_comm, statusWord_getLsbD_add_eight, BitVec.getLsbD_append]
  simp [hi]

@[simp] theorem statusWord_reserved (s : State) : (statusWord s).extractLsb' 11 5 = 0 := by
  ext i hi
  rw [BitVec.getElem_extractLsb', show 11 + i = i + 3 + 8 by omega, statusWord_getLsbD_add_eight,
    BitVec.getLsbD_append]
  simp

/-- The codes of R28, whatever the fetch's phase or the no-data event's answer is (log entry 9). -/
theorem code_of_rs (r : ReaderState) :
    (r = .idle → r.code = 0) ∧ (r = .inspect → r.code = 1) ∧ (∀ p, r = .fetch p → r.code = 2) ∧
    (∀ a, r = .nodata a → r.code = 3) ∧ (r = .finish → r.code = 4) := by
  cases r <;> simp [ReaderState.code]

/-! ## `CR2` PENDN and `CR3` CORRN (R35, R36) -/

theorem pendn_toNat (s : State) : (pendn s).toNat = s.pend.length % 512 :=
  (BitVec.toNat_append (0 : BitVec 7) (BitVec.ofNat 9 s.pend.length)).trans (by simp)

theorem pendn_count (s : State) (h : s.pend.length ≤ 257) :
    ((pendn s).extractLsb' 0 9).toNat = s.pend.length := by
  rw [BitVec.extractLsb'_toNat, pendn_toNat]
  simp
  omega

theorem pendn_reserved (s : State) : (pendn s).extractLsb' 9 7 = 0 := by
  apply BitVec.eq_of_toNat_eq
  rw [BitVec.extractLsb'_toNat, pendn_toNat, Nat.shiftRight_eq_div_pow]
  simp

theorem corrn_toNat (s : State) : (corrn s).toNat = min s.corr.length 65535 := by
  rw [corrn, BitVec.toNat_ofNat]
  omega

theorem corrn_eq_zero {s : State} (h : s.corr = []) : corrn s = 0 := by
  simp [corrn, h]

/-! ## The registers at the commands (R192, R193) -/

theorem exec_rdcr_of_crRead {n : BitVec 4} {s : State} {v : Half} (h : crRead n s = some v) :
    exec (.rdcr n) s = .next (respond (.value v) s) := by
  simp only [exec, execRdcr, h]

theorem exec_wrcr_readOnly {n : BitVec 4} (s : State) (v : Half) (h : n ≠ 0) :
    exec (.wrcr n v) s = .next (raise .system .badCommand s) := by
  simp only [exec, execWrcr, crWrite, if_neg h]

/-- Settles O21: the flags and the `RS` field are read off the word; the write is refused because only `CR0` can be
written. -/
theorem statusWordFields : Obligations.StatusWordFields := by
  unfold Obligations.StatusWordFields
  refine ⟨fun s => ?_, fun s => ?_, fun s v => ?_, rfl⟩
  · obtain ⟨eosr, susp, presv, failed, ovf, closed, nomore, slotf⟩ := statusWord_flags s
    exact ⟨eosr, susp, presv, failed, ovf, closed, nomore, slotf, statusWord_rs s, statusWord_reserved s⟩
  · rw [statusWord_rs]
    exact code_of_rs s.rs
  · exact ⟨exec_rdcr_of_crRead rfl, exec_wrcr_readOnly s v (by decide)⟩

/-- Settles O22: the counts are read off the words, and `CORRN` between `READ`s is R40 (a). -/
theorem countRegisters : Obligations.CountRegisters := by
  unfold Obligations.CountRegisters
  refine ⟨fun s => ?_, fun s v => ?_, ⟨rfl, rfl⟩, fun s inv idle failed ovf => ?_⟩
  · exact ⟨pendn_count s, pendn_reserved s, corrn_toNat s⟩
  · exact ⟨exec_rdcr_of_crRead rfl, exec_rdcr_of_crRead rfl, exec_wrcr_readOnly s v (by decide),
      exec_wrcr_readOnly s v (by decide)⟩
  · exact corrn_eq_zero (inv.idle_corr idle failed ovf)

end Sys2Proof.Proofs

/-! SUPPORT. The invariant (R40, R152, R167, R169, R171) is kept by every move. What it asks of a state is said once
for the time between `READ`s (`Rest`), once for a `READ` in progress (`Scan`) and once for the point at which the
reader stands (`AtPoint`), so a move is checked only for what it changes and for the point it leads to. -/

namespace Sys2Proof.Proofs

open Sys2Proof.Machine Sys2Proof.Laws

/-! ## The invariant between `READ`s and during one -/

/-- What the invariant asks of the buffers and the system line, whatever the reader does. -/
structure Bounded (s : State) : Prop where
  pend_bound : s.pend.length ≤ 257
  corr_bound : ∀ c, s.params.corrCap = some c → s.corr.length ≤ c
  sys_line : s.sysWait ≠ none → s.sr = none

/-- What the invariant asks of a state between `READ`s, besides `RS` itself. -/
structure Rest (s : State) : Prop extends Bounded s where
  pres_bound : ∀ f, s.pres = some f → f.payload.length ≤ 253
  one_of_three : (s.pres ≠ none → s.failed = false ∧ s.ovf = false) ∧ (s.failed = true → s.ovf = false)
  idle_corr : s.failed = false → s.ovf = false → s.corr = []

/-- What the invariant asks of a state during a `READ`, wherever the reader stands. -/
structure Scan (s : State) : Prop extends Bounded s where
  clear : s.pres = none ∧ s.failed = false ∧ s.ovf = false ∧ s.rr = none
  nomore_found : s.nomore = true → s.susp = true ∧ (s.eosr = true ∨ s.corr ≠ [] ∨ s.pend ≠ [])
  first_byte : s.nomore = false → s.pend = [] → s.corr = []

/-- What the invariant asks of the point at which the reader stands. -/
structure AtPoint (s : State) : Prop where
  fetch_bound : ∀ p, s.rs = .fetch p → s.pend.length < 257
  real_fetch : ∀ p, s.rs = .fetch p → p.real = true → s.nomore = false ∧ s.eosr = false ∧ s.susp = false
  timed_wait : s.rs = .fetch (.wait .timed) → s.pend ≠ [] ∧ s.gapcnt.toNat < s.tsnap.toNat
  timeout_pend : s.rs = .nodata .timeout → s.pend ≠ []
  finish_nomore : s.rs = .finish → s.nomore = true

section
variable {s : State}

theorem rest_of_inv (h : Inv s) (idle : s.rs = .idle) : Rest s :=
  { h with idle_corr := h.idle_corr idle }

theorem scan_of_inv (h : Inv s) (busy : s.rs ≠ .idle) : Scan s :=
  { h with
    clear := h.scan_clear busy
    nomore_found := h.nomore_found busy
    first_byte := h.first_byte busy }

theorem inv_of_rest (h : Rest s) (idle : s.rs = .idle) : Inv s :=
  { h with
    idle_corr := fun _ => h.idle_corr
    pres_corr := fun held => h.idle_corr (h.one_of_three.1 held).1 (h.one_of_three.1 held).2
    fetch_bound := by simp [idle]
    scan_clear := fun busy => absurd idle busy
    real_fetch := by simp [idle]
    timed_wait := by simp [idle]
    timeout_pend := by simp [idle]
    nomore_found := fun busy => absurd idle busy
    finish_nomore := by simp [idle]
    first_byte := fun busy => absurd idle busy }

theorem inv_of_scan (h : Scan s) (busy : s.rs ≠ .idle) (p : AtPoint s) : Inv s :=
  { h, p with
    pres_bound := by simp [h.clear.1]
    one_of_three := by simp [h.clear]
    idle_corr := fun idle => absurd idle busy
    pres_corr := fun held => absurd h.clear.1 held
    scan_clear := fun _ => h.clear
    nomore_found := fun _ => h.nomore_found
    first_byte := fun _ => h.first_byte }

/-! The end of a `READ`: with nothing left in `CORR`, or with one of the two sticky faults. -/

theorem inv_of_emptied (h : Bounded s) (idle : s.rs = .idle) (pres : ∀ f, s.pres = some f → f.payload.length ≤ 253)
    (noFault : s.failed = false ∧ s.ovf = false) (corr : s.corr = []) : Inv s :=
  inv_of_rest
    { h with
      pres_bound := pres
      one_of_three := ⟨fun _ => noFault, fun _ => noFault.2⟩
      idle_corr := fun _ _ => corr }
    idle

theorem inv_of_fault (h : Bounded s) (idle : s.rs = .idle) (pres : s.pres = none) (one : s.ovf = !s.failed) :
    Inv s :=
  inv_of_rest
    { h with
      pres_bound := by simp [pres]
      one_of_three := ⟨fun held => absurd pres held, fun failed => by simp [one, failed]⟩
      idle_corr := fun failed ovf => by simp [one, failed] at ovf }
    idle

/-! The points a `READ` in progress can stand at. -/

theorem inv_of_inspect (h : Scan s) (rs : s.rs = .inspect) : Inv s :=
  inv_of_scan h (by simp [rs]) <| by constructor <;> simp [rs]

theorem inv_of_fetch {p : FetchPhase} (h : Scan s) (rs : s.rs = .fetch p) (bound : s.pend.length < 257)
    (flags : p.real = true → s.nomore = false ∧ s.eosr = false ∧ s.susp = false)
    (timed : p = .wait .timed → s.pend ≠ [] ∧ s.gapcnt.toNat < s.tsnap.toNat) : Inv s :=
  inv_of_scan h (by simp [rs])
    { fetch_bound := fun _ _ => bound
      real_fetch := fun q hq => by rw [rs] at hq; cases hq; exact flags
      timed_wait := fun hq => timed (by rw [rs] at hq; cases hq; rfl)
      timeout_pend := by simp [rs]
      finish_nomore := by simp [rs] }

theorem inv_of_nodata {a : NoData} (h : Scan s) (rs : s.rs = .nodata a) (pend : a = .timeout → s.pend ≠ []) :
    Inv s :=
  inv_of_scan h (by simp [rs]) <| by constructor <;> simp [rs]; exact pend

theorem inv_of_finish (h : Scan s) (rs : s.rs = .finish) (nomore : s.nomore = true) : Inv s :=
  inv_of_scan h (by simp [rs]) <| by constructor <;> simp [rs, nomore]

end

/-! ## The invariant of a view -/

/-- A state with the given view, every other field as at reset. -/
def stateOf (c : View) : State :=
  { State.reset with
    pend := c.pend, corr := c.corr, pres := c.pres, eosr := c.eosr, susp := c.susp, nomore := c.nomore
    failed := c.failed, ovf := c.ovf, closed := c.closed, rs := c.rs, slot := c.slot, gapcnt := c.gapcnt
    tsnap := c.tsnap, params := c.params, sr := c.sr, rr := c.rr, sysWait := c.sysWait, linkQ := c.linkQ
    rdrLog := c.rdrLog }

/-- The invariant speaks of the view alone. -/
theorem inv_stateOf_view (s : State) : Inv (stateOf (view s)) ↔ Inv s :=
  ⟨fun h => { h with }, fun h => { h with }⟩

/-- A wait that has not reached its end has not reached it after one more tick either, unless that was the last. -/
theorem gapcnt_succ_lt {g n : Half} (h : g.toNat < n.toNat) (more : g + 1 ≠ n) : (g + 1).toNat < n.toNat := by
  have hne : (g + 1).toNat ≠ n.toNat := fun e => more (BitVec.eq_of_toNat_eq e)
  bv_omega

/-- Where a real fetch begins or goes on, a byte fits in `PEND` and the flags are clear (R157, R139, R171). -/
theorem flags_of_polls {c : View} {su : Bool} (h : Inv (stateOf c)) (polls : c.Polls su) :
    c.rs ≠ .idle ∧ c.pend.length < 257 ∧ c.nomore = false ∧ c.eosr = false ∧ su = false := by
  rcases polls with ⟨⟨rs, goesOn, eosr, unsuspended⟩, rfl⟩ | ⟨m, rs, rfl⟩
  · have busy : c.rs ≠ .idle := by simp [rs]
    refine ⟨busy, h.fetch_bound _ rs, Bool.eq_false_iff.2 fun nomore => goesOn ⟨nomore, .inr ?_⟩, eosr, rfl⟩
    have susp : c.susp = true := (h.nomore_found busy nomore).1
    simpa [susp] using unsuspended
  · exact ⟨by simp [rs], h.fetch_bound _ rs, h.real_fetch _ rs rfl⟩

/-- One more byte in a `CORR` that is not full stays within the capacity. -/
theorem corr_bound_snoc {c : View} (h : Inv (stateOf c)) (room : c.params.corrCap ≠ some c.corr.length) (v : Byte) :
    ∀ n, c.params.corrCap = some n → (c.corr ++ [v]).length ≤ n := by
  intro n hn
  have hle : c.corr.length ≤ n := h.corr_bound n hn
  have hne : c.corr.length ≠ n := fun e => room (e ▸ hn)
  simp
  omega

/-! ## Every move keeps the invariant -/

section
variable {c : View} (h : Inv (stateOf c))
include h

/-- At any point but `RS_IDLE` a `READ` is in progress. -/
theorem scan_at {r : ReaderState} (rs : c.rs = r) (busy : r ≠ .idle) : Scan (stateOf c) :=
  scan_of_inv h (show c.rs ≠ .idle from rs ▸ busy)

/-- A real fetch that is answered, or waits without a timeout. -/
theorem inv_polled {su : Bool} (polls : c.Polls su) (x : Slot) (p : FetchPhase) (untimed : p ≠ .wait .timed) :
    Inv (stateOf { c with susp := su, slot := x, rs := .fetch p }) := by
  obtain ⟨busy, bound, nomore, eosr, rfl⟩ := flags_of_polls h polls
  have scan := scan_of_inv h busy
  exact inv_of_fetch { scan with nomore_found := fun e => absurd e (by simp [stateOf, nomore]) } rfl bound
    (fun _ => ⟨nomore, eosr, rfl⟩) (fun e => absurd e untimed)

theorem inv_pollEos {su : Bool} (polls : c.Polls su) (x : Slot) :
    Inv (stateOf { c with susp := su, slot := x, rs := .nodata .eos }) := by
  obtain ⟨busy, -, nomore, -, -⟩ := flags_of_polls h polls
  have scan := scan_of_inv h busy
  exact inv_of_nodata { scan with nomore_found := fun e => absurd e (by simp [stateOf, nomore]) } rfl
    (fun e => absurd e (by simp))

theorem inv_waitTimed {v : Half} (asks : c.Asks) (pend : c.pend ≠ []) (positive : v ≠ 0) :
    Inv (stateOf { c with susp := false, gapcnt := 0, tsnap := v, rs := .fetch (.wait .timed) }) := by
  obtain ⟨busy, bound, nomore, eosr, -⟩ := flags_of_polls h (su := false) (.inl ⟨asks, rfl⟩)
  have scan := scan_of_inv h busy
  have before : (0 : Half).toNat < v.toNat := by bv_omega
  exact inv_of_fetch { scan with nomore_found := fun e => absurd e (by simp [stateOf, nomore]) } rfl bound
    (fun _ => ⟨nomore, eosr, rfl⟩) (fun _ => ⟨pend, before⟩)

/-- After a no-data event something is buffered or the stream has ended (R167): what it found is in `CORR`. -/
theorem scan_noData {a : NoData} (rs : c.rs = .nodata a) {pend corr : List Byte}
    (pend_bound : pend.length ≤ 257) (corr_bound : ∀ n, c.params.corrCap = some n → corr.length ≤ n)
    (found : c.pend ≠ [] → corr ≠ []) :
    Scan (stateOf { c with
      eosr := c.eosr || a == .eos, nomore := true, susp := true, rs := .inspect, pend := pend, corr := corr }) := by
  have scan := scan_at h rs nofun
  refine { scan with
    pend_bound := pend_bound, corr_bound := corr_bound, nomore_found := fun _ => ⟨rfl, ?_⟩, first_byte := nofun }
  cases a with
  | eos => exact .inl (by simp [stateOf])
  | timeout => exact .inr (.inl (found (h.timeout_pend rs)))

/-- `RD.OVF` ends a `READ` in progress, with some bytes moved from `PEND` to `CORR` (R166). -/
theorem inv_overflow (busy : c.rs ≠ .idle) {pend corr : List Byte} (eosr nomore : Bool)
    (pend_bound : pend.length ≤ c.pend.length) (corr_bound : ∀ n, c.params.corrCap = some n → corr.length ≤ n) :
    Inv (stateOf { c with
      eosr := eosr, nomore := nomore, rs := .idle, pend := pend, corr := corr, ovf := true
      rr := failure .overflow }) := by
  have scan := scan_of_inv h busy
  obtain ⟨pres, failed, -, -⟩ := scan.clear
  have bounded : Bounded (stateOf c) := scan.toBounded
  exact inv_of_fault { bounded with pend_bound := pend_bound.trans h.pend_bound, corr_bound := corr_bound } rfl pres
    (show true = !c.failed from (congrArg not failed).symm)

/-- A `READ` in progress ends with `CORR` empty. -/
theorem inv_ended (busy : c.rs ≠ .idle) {pend : List Byte} (pres : Option Frame) (rr : Option RdrResp)
    (pend_bound : pend.length ≤ c.pend.length) (pres_bound : ∀ f, pres = some f → f.payload.length ≤ 253) :
    Inv (stateOf { c with pend := pend, corr := [], pres := pres, rs := .idle, rr := rr }) := by
  have scan := scan_of_inv h busy
  obtain ⟨-, failed, ovf, -⟩ := scan.clear
  have bounded : Bounded (stateOf c) := scan.toBounded
  exact inv_of_emptied
    { bounded with pend_bound := pend_bound.trans h.pend_bound, corr_bound := fun _ _ => Nat.zero_le _ } rfl
    pres_bound ⟨failed, ovf⟩ rfl

end

/-- Every move keeps the invariant. -/
theorem move_keeps_inv {c d : View} (m : Move c d) (h : Inv (stateOf c)) : Inv (stateOf d) := by
  cases m with
  | sys sr w cl wait sticky => exact { h with sys_line := wait h.sys_line }
  | takeRdr =>
    refine { h with scan_clear := fun busy => ?_ }
    obtain ⟨pres, failed, ovf, -⟩ := h.scan_clear busy
    exact ⟨pres, failed, ovf, rfl⟩
  | deposit k d rest q slot opened => exact { h with }
  | eos rest q slot opened => exact { h with }
  | gap rest q => exact { h with }
  | frame f rest q => exact { h with }
  | tick rs slot opened more =>
    obtain ⟨pend, before⟩ := h.timed_wait rs
    exact { h with timed_wait := fun _ => ⟨pend, gapcnt_succ_lt before more⟩ }
  | lastTick rs slot opened last =>
    have scan := scan_at h rs nofun
    exact inv_of_nodata { scan with } rfl fun _ => (h.timed_wait rs).1
  | readHeld f rs rr held =>
    have rest := rest_of_inv h rs
    have isHeld : c.pres ≠ none := by simp [held]
    exact inv_of_emptied { rest with } rfl nofun (rest.one_of_three.1 isHeld) (h.pres_corr isHeld)
  | readFailed rs rr none_ failed => exact inv_of_rest { rest_of_inv h rs with } rfl
  | readOvf rs rr none_ failed ovf => exact inv_of_rest { rest_of_inv h rs with } rfl
  | readStart rs rr none_ failed ovf =>
    have rest := rest_of_inv h rs
    exact inv_of_inspect
      { rest with
        clear := ⟨none_, failed, ovf, rr⟩
        nomore_found := nofun
        first_byte := fun _ _ => rest.idle_corr failed ovf } rfl
  | pop v rest rs pend left room =>
    have scan := scan_at h rs nofun
    have bound : (v :: rest).length ≤ 257 := pend ▸ h.pend_bound
    exact inv_of_inspect
      { scan with
        pend_bound := Nat.le_of_succ_le bound
        corr_bound := corr_bound_snoc h room v
        nomore_found := fun nomore => ⟨(scan.nomore_found nomore).1, .inr (.inr left)⟩
        first_byte := fun _ e => absurd e left } rfl
  | popOvf v rest rs pend full =>
    exact inv_overflow h (by simp [rs]) c.eosr c.nomore (by simp [pend]) h.corr_bound
  | accept f rest rs size pend corr =>
    have e := inv_ended h (by simp [rs]) c.pres (success (validElement f (wireBytes f)))
      (pend := rest) (by simp [pend]) h.pres_bound
    rwa [← corr] at e
  | acceptHold f rest rs size pend corr =>
    exact inv_ended h (by simp [rs]) (some f) _ (by simp [pend]) fun g hg => Option.some.inj hg ▸ size
  | needMore rs pend =>
    have scan := scan_at h rs nofun
    exact inv_of_fetch { scan with } rfl pend nofun nofun
  | finish rs stops =>
    have scan := scan_at h rs nofun
    exact inv_of_finish { scan with } rfl stops.1
  | eosAgain rs stops eosr =>
    have scan := scan_at h rs nofun
    exact inv_of_nodata { scan with } rfl nofun
  | timeoutAgain rs stops eosr susp pend =>
    have scan := scan_at h rs nofun
    exact inv_of_nodata { scan with } rfl fun _ => pend
  | pollByte su b polls slot => exact inv_polled h polls .empty (.byte b) nofun
  | pollEos su polls slot => exact inv_pollEos h polls .empty
  | pollErr su polls slot => exact inv_polled h polls .empty .fail nofun
  | pollClosed su polls slot closed => exact inv_polled h polls c.slot .fail nofun
  | wait asks slot opened => exact inv_polled h (.inl ⟨asks, rfl⟩) c.slot (.wait .untimed) nofun
  | waitTimed v asks slot opened pend positive => exact inv_waitTimed h asks pend positive
  | byte b rs =>
    have scan := scan_at h rs nofun
    have bound : c.pend.length < 257 := h.fetch_bound _ rs
    have nonempty : c.pend ++ [b] ≠ [] := by simp
    exact inv_of_inspect
      { scan with
        pend_bound := by simpa [stateOf] using bound
        nomore_found := fun nomore => ⟨(scan.nomore_found nomore).1, .inr (.inr nonempty)⟩
        first_byte := fun _ e => absurd e nonempty } rfl
  | noDataAll a rs few room =>
    exact inv_of_inspect
      (scan_noData h rs (Nat.zero_le _) (fun n hn => room n hn (h.corr_bound n hn))
        (fun pend e => pend (List.append_eq_nil_iff.1 e).2)) rfl
  | noDataAllOvf a b v rest rs pend full =>
    refine inv_overflow h (by simp [rs]) _ true (by simp [pend]; omega) fun n hn => ?_
    exact Nat.le_of_eq (Option.some.inj (full.symm.trans hn))
  | noDataOne a v rest rs pend many room =>
    have bound : (v :: rest).length ≤ 257 := pend ▸ h.pend_bound
    exact inv_of_inspect
      (scan_noData h rs (Nat.le_of_succ_le bound) (corr_bound_snoc h room v) (by simp)) rfl
  | noDataOneOvf a v rest rs pend many full =>
    exact inv_overflow h (by simp [rs]) _ true (by simp [pend]) h.corr_bound
  | flush rs found => exact inv_ended h (by simp [rs]) c.pres _ (Nat.zero_le _) h.pres_bound
  | null rs corr pend eosr =>
    have e := inv_ended h (by simp [rs]) c.pres (success .null) (Nat.le_refl _) h.pres_bound
    rwa [← corr] at e
  | internal rs corr pend eosr =>
    have e := inv_ended h (by simp [rs]) c.pres (failure .internal) (Nat.le_refl _) h.pres_bound
    rwa [← corr] at e
  | fail rs =>
    have scan := scan_at h rs nofun
    obtain ⟨pres, -, ovf, -⟩ := scan.clear
    have bounded : Bounded (stateOf c) := scan.toBounded
    exact inv_of_fault { bounded with } rfl pres ovf

/-! ## The invariant at reset and along every step -/

theorem inv_resetBlock (s : State) : Inv (resetBlock s) :=
  inv_of_emptied
    { pend_bound := Nat.zero_le _, corr_bound := fun _ _ => Nat.zero_le _, sys_line := fun _ => rfl }
    rfl nofun ⟨rfl, rfl⟩ rfl

/-- Settles O51: the reset state is what `rst` makes of itself. -/
theorem invariantAtReset : Obligations.InvariantAtReset :=
  inv_resetBlock State.reset

/-- Settles O52: `rst` establishes the invariant, and every other step is a move. -/
theorem invariantKeptByEveryStep : Obligations.InvariantKeptByEveryStep := by
  unfold Obligations.InvariantKeptByEveryStep
  intro s t inv st
  rcases step_cases st with ⟨-, rfl⟩ | ⟨-, m⟩
  · exact inv_resetBlock (popTurn s)
  · exact (inv_stateOf_view t).1 (move_keeps_inv m ((inv_stateOf_view s).2 inv))

end Sys2Proof.Proofs

/-! SUPPORT. What the moves say of the end of a `READ` and of `RS`. -/

namespace Sys2Proof.Proofs

open Sys2Proof.Machine Sys2Proof.Laws

/-! ## A `READ` that ends with `ST_OK` (R168) -/

/-- A move that answers an element leaves `CORR` empty. -/
theorem corr_nil_of_success {c d : View} {e : Element} (m : Move c d) (h : Inv (stateOf c)) (free : c.rr = none)
    (answered : d.rr = success e) : d.corr = [] := by
  cases m
  case readHeld f rs rr held => exact h.pres_corr (by simp [stateOf, held])
  case accept f rest rs size pend corr => exact corr
  case acceptHold => rfl
  case flush => rfl
  case null rs corr pend eosr => exact corr
  all_goals simp [free] at answered

/-- Settles O57: `rst` answers nothing, and of the moves only the five that return an element matter. -/
theorem readsThatSucceedLeaveCorrEmpty : Obligations.ReadsThatSucceedLeaveCorrEmpty := by
  unfold Obligations.ReadsThatSucceedLeaveCorrEmpty
  intro s t e inv st free answered
  rcases step_cases st with ⟨-, rfl⟩ | ⟨-, m⟩
  · exact nomatch answered
  · exact corr_nil_of_success m ((inv_stateOf_view s).2 inv) free answered

/-! ## The transitions of `RS` (R165) -/

theorem code_toNat_le (r : ReaderState) : r.code.toNat ≤ 4 := by
  cases r <;> simp [ReaderState.code]

/-- The transition table of R165, by the codes of R28. -/
def rsTable : List (BitVec 3 × BitVec 3) :=
  [(0, 1), (1, 2), (1, 0), (2, 4), (2, 1), (2, 3), (2, 0), (3, 1), (3, 0), (4, 0)]

/-- A real fetch is made at the fetch point. -/
theorem code_of_polls {c : View} {su : Bool} (polls : c.Polls su) : c.rs.code = 2 := by
  rcases polls with ⟨⟨rs, -⟩, -⟩ | ⟨m, rs, -⟩ <;> rw [rs] <;> rfl

/-- A move leaves `RS` or goes along the table. -/
theorem move_rs {c d : View} (m : Move c d) : c.rs.code = d.rs.code ∨ (c.rs.code, d.rs.code) ∈ rsTable := by
  cases m with
  | sys | takeRdr | deposit | eos | gap | frame | tick => exact .inl rfl
  | readHeld _ rs | readFailed rs | readOvf rs => exact .inl (by rw [rs])
  | pop _ _ rs => exact .inl (by rw [rs])
  | pollByte _ _ polls | pollErr _ polls | pollClosed _ polls => exact .inl (code_of_polls polls)
  | pollEos _ polls => exact .inr (by rw [code_of_polls polls]; simp only [ReaderState.code]; decide)
  | wait asks | waitTimed _ asks => exact .inl (by rw [asks.1]; rfl)
  | readStart rs | lastTick rs | popOvf _ _ rs | accept _ _ rs | acceptHold _ _ rs | needMore rs | finish rs
  | eosAgain rs | timeoutAgain rs | byte _ rs | noDataAll _ rs | noDataAllOvf _ _ _ _ rs | noDataOne _ _ _ rs
  | noDataOneOvf _ _ _ rs | flush rs | null rs | internal rs | fail rs =>
    exact .inr (by rw [rs]; simp only [ReaderState.code]; decide)

/-- Settles O59: what every move does to `RS`. -/
theorem controlStateTransitions : Obligations.ControlStateTransitions := by
  unfold Obligations.ControlStateTransitions
  intro s t st running
  rcases step_cases st with ⟨rst, -⟩ | ⟨-, m⟩
  · exact absurd rst running
  · exact ⟨code_toNat_le t.rs, move_rs m⟩

end Sys2Proof.Proofs

/-! SUPPORT. Who writes `PEND`, `CORR` and `PRES` (R22, R50): what each agent's turn does to the three buffers. -/

namespace Sys2Proof.Proofs

open Sys2Proof.Machine Sys2Proof.Laws

/-- The three buffers of the reader. -/
def buffers (c : View) : List Byte × List Byte × Option Frame := (c.pend, c.corr, c.pres)

/-! ## The turns that are not the reader's -/

theorem exec_enc_buffers {src dst : Byte} {len : BitVec 9} {s t : State} (h : exec (.enc src dst len) s = .next t) :
    buffers (view t) = buffers (view s) := by
  obtain ⟨u, e, ⟨_, hv⟩ | ⟨_, hv⟩⟩ := exec_enc_cases src dst len s <;> rw [e] at h <;> cases h <;> rw [hv] <;> rfl

theorem exec_dec_buffers {len : BitVec 9} {s t : State} (h : exec (.dec len) s = .next t) :
    buffers (view t) = buffers (view s) := by
  obtain ⟨u, e, ⟨_, hv⟩ | ⟨_, hv⟩⟩ := exec_dec_cases len s <;> rw [e] at h <;> cases h <;> rw [hv] <;> rfl

theorem closeRespond_buffers (a : CloseAnswer) (s : State) :
    buffers (view (closeRespond a s)) = buffers (view s) := by
  cases a <;> rfl

theorem exec_close_buffers {s t : State} (h : exec .close s = .next t) : buffers (view t) = buffers (view s) := by
  simp only [exec, execClose] at h
  split at h
  · cases h; rfl
  · split at h <;> cases h
    · exact closeRespond_buffers _ _
    · rfl

/-- A system command leaves the buffers. -/
theorem exec_system_buffers {w : CmdWord} {s t : State} (system : decodeCommand w ≠ .read)
    (h : exec (decodeCommand w) s = .next t) : buffers (view t) = buffers (view s) := by
  rcases decodeCommand_cases w with k | ⟨a, b, l, k⟩ | ⟨l, k⟩ | k | k | ⟨n, k⟩ | ⟨n, v, k⟩ | ⟨c, k⟩ <;> rw [k] at h
  · cases h; rfl
  · exact exec_enc_buffers h
  · exact exec_dec_buffers h
  · exact absurd k system
  · exact exec_close_buffers h
  · simp only [exec, execRdcr] at h
    split at h <;> cases h <;> rfl
  · simp only [exec, execWrcr, crWrite] at h
    by_cases h0 : n = 0
    · rw [if_pos h0] at h; cases h; rfl
    · rw [if_neg h0] at h; cases h; rfl
  · cases h; rfl

/-- An accepted `READ` leaves the buffers, or returns the held frame and clears `PRES` (R151). -/
theorem exec_read_buffers {s t : State} (h : exec .read s = .next t) :
    buffers (view t) = buffers (view s) ∨ ∃ f, s.pres = some f ∧ t = deliverHeld f s := by
  simp only [exec, execRead] at h
  split at h
  · split at h
    · rename_i f held
      cases h
      exact .inr ⟨f, held, rfl⟩
    · left
      split at h
      · cases h; rfl
      · split at h <;> cases h <;> rfl
  · cases h; exact .inl rfl

theorem hostTurn_buffers {s t : State} (h : hostTurn s = .next t) :
    buffers (view t) = buffers (view s) ∨
    ∃ c rest f, s.hostQ = c :: rest ∧ decodeCommand c.word = .read ∧ accepted .read s = true ∧ s.pres = some f ∧
      t = deliverHeld f (acceptCommand c rest s) := by
  unfold hostTurn at h
  split at h
  · cases h; exact .inl rfl
  · rename_i c rest offered
    split at h
    · rename_i ok
      by_cases read : decodeCommand c.word = .read
      · rw [read] at h ok
        refine (exec_read_buffers h).imp id ?_
        rintro ⟨f, held, rfl⟩
        exact ⟨c, rest, f, offered, read, ok, held, rfl⟩
      · exact .inl ((exec_system_buffers read h).trans rfl)
    · cases h; exact .inl rfl

theorem sysTurn_buffers {s t : State} (h : sysTurn s = .next t) : buffers (view t) = buffers (view s) := by
  unfold sysTurn at h
  split at h
  · cases h; rfl
  · exact (exec_enc_buffers h).trans rfl
  · exact (exec_dec_buffers h).trans rfl
  · split at h <;> cases h
    · exact closeRespond_buffers _ _
    · rfl

theorem exec_rxDeposit_buffers {k : RxKind} {d : Byte} {s t : State} (h : exec (.rxDeposit k d) s = .next t) :
    buffers (view t) = buffers (view s) := by
  simp only [exec, execRxDeposit] at h
  split at h <;> cases h <;> rfl

theorem exec_frame_buffers {src dst : Byte} {p : List Byte} {s t : State} (h : exec (.frame src dst p) s = .next t) :
    buffers (view t) = buffers (view s) := by
  simp only [exec, execFrame] at h
  split at h <;> cases h <;> rfl

theorem transportTurn_buffers {s t : State} (h : transportTurn s = .next t) :
    buffers (view t) = buffers (view s) := by
  unfold transportTurn at h
  split at h
  · cases h; rfl
  · split at h
    · exact (exec_rxDeposit_buffers h).trans rfl
    · cases h; rfl
  · exact exec_rxDeposit_buffers h
  · split at h <;> cases h <;> rfl
  · exact (exec_frame_buffers h).trans rfl

theorem exec_tmrTick_buffers {s t : State} (h : exec .tmrTick s = .next t) :
    buffers (view t) = buffers (view s) := by
  simp only [exec, execTmrTick] at h
  split at h
  · split at h <;> cases h <;> rfl
  · cases h; rfl

theorem tickTurn_buffers {s t : State} (h : tickTurn s = .next t) : buffers (view t) = buffers (view s) := by
  unfold tickTurn at h
  rw [exec_tmrTick_buffers h]
  split <;> rfl

/-- Every turn but the reader's and `rst` leaves the buffers, or is a `READ` that returns the held frame. -/
theorem takeTurn_buffers {n : Turn} {s t : State} (other : n ≠ .rsy) (running : n ≠ .rst)
    (h : takeTurn n s = .next t) :
    buffers (view t) = buffers (view s) ∨
    n = .host ∧ ∃ c rest f, s.hostQ = c :: rest ∧ decodeCommand c.word = .read ∧ accepted .read s = true ∧
      s.pres = some f ∧ t = deliverHeld f (acceptCommand c rest s) := by
  cases n with
  | host => exact (hostTurn_buffers h).imp id fun read => ⟨rfl, read⟩
  | sys => exact .inl (sysTurn_buffers h)
  | rsy => exact absurd rfl other
  | xport => exact .inl (transportTurn_buffers h)
  | tick => exact .inl (tickTurn_buffers h)
  | rst => exact absurd rfl running
  | hostData | closeAck | takeSys | takeRdr => cases h; exact .inl rfl

/-! ## The reader's turn -/

/-- The scanner accepts every frame of the wire format at the front of `PEND` (R117, R154). -/
theorem judge_wireBytes_append {f : Frame} (rest : List Byte) (size : f.payload.length ≤ 253) :
    judge (wireBytes f ++ rest) = .accept := by
  have second : bufRead (wireBytes f ++ rest) 1 = some (lenByte f.payload.length) := by
    rw [wireBytes_eq]
    rfl
  have window : (wireBytes f ++ rest).take (f.payload.length + 4) = wireBytes f :=
    List.take_left' (wireBytes_length f)
  simp [judge, second, expectedSize_lenByte size, window]

/-- Only two moves write `PRES`: a `READ` of the held frame, and the acceptance of a frame behind noise. -/
theorem move_pres {c d : View} (m : Move c d) :
    d.pres = c.pres ∨ c.rs = .idle ∨
    ∃ f rest, c.rs = .inspect ∧ f.payload.length ≤ 253 ∧ c.pend = wireBytes f ++ rest ∧ c.corr ≠ [] ∧
      d.pres = some f := by
  cases m
  case readHeld f rs rr held => exact .inr (.inl rs)
  case acceptHold f rest rs size pend corr => exact .inr (.inr ⟨f, rest, rs, size, pend, corr, rfl⟩)
  all_goals exact .inl rfl

theorem readerTurn_idle {s : State} (idle : s.rs = .idle) : readerTurn s = .next s := by
  simp only [readerTurn, microOp, idle]

theorem microOp_inspect_accept {s : State} (rs : s.rs = .inspect) (accepts : judge s.pend = .accept) :
    microOp s = .run .rdAccept := by
  simp only [microOp, rs, accepts]

/-- The reader writes `PRES` only by `RD.ACCEPT` behind noise (R154). -/
theorem readerTurn_pres {s t : State} (h : readerTurn s = .next t) :
    t.pres = s.pres ∨ (microOp s = .run .rdAccept ∧ s.corr ≠ [] ∧ t.pres ≠ none) := by
  obtain ⟨t', e, m⟩ := move_reader s
  obtain rfl : t' = t := by rw [e] at h; cases h; rfl
  rcases move_pres m with same | idle | ⟨f, rest, rs, size, pend, corr, held⟩
  · exact .inl same
  · rw [readerTurn_idle idle] at h
    cases h
    exact .inl rfl
  · have accepts : judge s.pend = .accept := (congrArg judge pend).trans (judge_wireBytes_append rest size)
    have set : t'.pres = some f := held
    exact .inr ⟨microOp_inspect_accept rs accepts, corr, by simp [set]⟩

/-- Settles O54: a turn that is not the reader's leaves the buffers or is the `READ` of the held frame, and of the
reader's own moves only the acceptance behind noise writes `PRES`. -/
theorem onlyTheReaderWritesItsBuffers : Obligations.OnlyTheReaderWritesItsBuffers := by
  unfold Obligations.OnlyTheReaderWritesItsBuffers
  intro s t st running
  refine ⟨fun other => ?_, fun reader => ?_⟩
  · rcases takeTurn_buffers other running st with same | ⟨host, c, rest, f, offered, read, ok, held, rfl⟩
    · obtain ⟨pend, corr, pres⟩ : t.pend = s.pend ∧ t.corr = s.corr ∧ t.pres = s.pres := by
        simpa [buffers, view] using same
      exact ⟨pend, corr, .inl pres⟩
    · exact ⟨rfl, rfl, .inr ⟨c, rest, f, host, offered, read, ok, held, rfl, rfl⟩⟩
  · rw [step, reader] at st
    exact readerTurn_pres (s := popTurn s) st

end Sys2Proof.Proofs

/-! SUPPORT. The ordering law of R57: what every move does to the stream, part by part. -/

namespace Sys2Proof.Proofs

open Sys2Proof.Machine Sys2Proof.Laws

/-! ## The parts of the stream -/

/-- The stream of a view, its parts in order. -/
theorem stream_stateOf (c : View) :
    stream (stateOf c) =
      c.rdrLog.flatMap RdrResp.bytes ++ (c.rr.toList.flatMap RdrResp.bytes ++ (heldBytes c.pres ++ (c.corr ++
        (c.pend ++ (latchedBytes c.rs ++ (slotBytes c.slot ++ c.linkQ.flatMap LinkItem.bytes)))))) := by
  simp only [stream, consumedBytes, outBytes, comingBytes, List.append_assoc]
  rfl

/-- The stream is a matter of the view alone. -/
theorem stream_stateOf_view (s : State) : stream (stateOf (view s)) = stream s := rfl

@[simp] theorem heldBytes_none : heldBytes none = [] := rfl
@[simp] theorem heldBytes_some (f : Frame) : heldBytes (some f) = wireBytes f := rfl

/-- A response returns the bytes of its element. -/
@[simp] theorem bytes_response_element (st : Status) (e : Element) :
    ({ status := st, elem := some e } : RdrResp).bytes = e.bytes := rfl

@[simp] theorem bytes_response_failure (st : Status) : ({ status := st, elem := none } : RdrResp).bytes = [] := rfl

@[simp] theorem bytes_null : Element.null.bytes = [] := rfl
@[simp] theorem bytes_invalid (raw : List Byte) : (Element.invalid raw).bytes = raw := rfl
@[simp] theorem bytes_valid (src dst plen : Byte) (raw : List Byte) :
    (Element.valid src dst plen raw).bytes = raw := rfl

@[simp] theorem slotBytes_empty : slotBytes .empty = [] := rfl
@[simp] theorem slotBytes_eos : slotBytes .eos = [] := rfl

/-- A result deposited in the slot is the byte its link item stands for (R81, R131). -/
@[simp] theorem slotBytes_slotOf (k : RxKind) (d : Byte) :
    slotBytes (slotOf k d) = (LinkItem.deposit k d).bytes := by
  cases k <;> rfl

/-- The deposits a frame is expanded into stand for its bytes (R85). -/
@[simp] theorem bytes_deposits (bytes : List Byte) :
    (bytes.map (LinkItem.deposit .byte)).flatMap LinkItem.bytes = bytes := by
  simp [List.flatMap_map, LinkItem.bytes]

/-- A pause stands for no byte (R84). -/
@[simp] theorem bytes_dropGap (q : List LinkItem) :
    (dropGap q).flatMap LinkItem.bytes = q.flatMap LinkItem.bytes := by
  rcases q with _ | ⟨_ | _ | _ | _, _⟩ <;> rfl

/-- No byte is latched while a real fetch looks at the slot. -/
theorem latchedBytes_of_polls {c : View} {su : Bool} (polls : c.Polls su) : latchedBytes c.rs = [] := by
  rcases polls with ⟨⟨rs, -⟩, -⟩ | ⟨m, rs, -⟩ <;> rw [rs] <;> rfl

/-! ## Every move conserves the stream -/

/-- A `READ` in progress holds no frame, has not answered, and began without an overflow (R152, R254). -/
theorem unanswered {c : View} (h : Inv (stateOf c)) {r : ReaderState} (rs : c.rs = r) (busy : r ≠ .idle) :
    c.pres = none ∧ c.ovf = false ∧ c.rr = none := by
  obtain ⟨pres, -, ovf, rr⟩ := (scan_at h rs busy).clear
  exact ⟨pres, ovf, rr⟩

/-- A real fetch that is answered moves the byte of the slot, if there is one, to the latch. -/
theorem stream_polled {c : View} {su : Bool} (polls : c.Polls su) {x : Slot} {r : ReaderState}
    (moved : latchedBytes r ++ slotBytes x = slotBytes c.slot) :
    stream (stateOf { c with susp := su, slot := x, rs := r }) = stream (stateOf c) := by
  rw [stream_stateOf c, latchedBytes_of_polls polls, ← moved]
  simp [stream_stateOf]

/-- A move that sets no overflow leaves the stream as it is. -/
theorem move_stream {c d : View} (m : Move c d) (h : Inv (stateOf c)) (noOvf : d.ovf = c.ovf) :
    stream (stateOf d) = stream (stateOf c) := by
  cases m with
  | sys | tick => rfl
  | takeRdr => simp [stream_stateOf]
  | deposit k d rest q slot => simp [stream_stateOf, q, slot]
  | eos rest q slot => simp [stream_stateOf, slot]
  | gap rest q | frame _ rest q => simp [stream_stateOf, q, LinkItem.bytes]
  | readHeld f rs rr held => simp [stream_stateOf, rs, rr, held, validElement]
  | readFailed rs rr | readOvf rs rr => simp [stream_stateOf, rs, rr]
  | lastTick rs | readStart rs | needMore rs | finish rs | eosAgain rs | timeoutAgain rs | byte _ rs
  | noDataAll _ rs => simp [stream_stateOf, rs, latchedBytes]
  | pop _ _ rs pend | noDataOne _ _ _ rs pend => simp [stream_stateOf, rs, pend, latchedBytes]
  | popOvf _ _ rs | noDataAllOvf _ _ _ _ rs | noDataOneOvf _ _ _ rs =>
    obtain ⟨-, clear, -⟩ := unanswered h rs nofun
    exact nomatch noOvf.trans clear
  | accept f rest rs size pend corr =>
    obtain ⟨pres, -, rr⟩ := unanswered h rs nofun
    simp [stream_stateOf, rs, rr, pres, pend, corr, latchedBytes, validElement]
  | acceptHold f rest rs size pend =>
    obtain ⟨pres, -, rr⟩ := unanswered h rs nofun
    simp [stream_stateOf, rs, rr, pres, pend, latchedBytes]
  | pollByte _ _ polls slot | pollEos _ polls slot | pollErr _ polls slot =>
    exact stream_polled polls (by rw [slot]; rfl)
  | pollClosed _ polls => exact stream_polled polls rfl
  | wait asks | waitTimed _ asks => simp [stream_stateOf, asks.1, latchedBytes]
  | flush rs | null rs | internal rs | fail rs =>
    obtain ⟨pres, -, rr⟩ := unanswered h rs nofun
    simp [stream_stateOf, rs, rr, pres, latchedBytes]

/-- Settles O53: every step but `rst` is a move, and every move that sets no overflow conserves the stream. -/
theorem everyStepConservesTheStream : Obligations.EveryStepConservesTheStream := by
  unfold Obligations.EveryStepConservesTheStream
  intro s t inv st running noOvf
  rcases step_cases st with ⟨rst, -⟩ | ⟨-, m⟩
  · exact absurd rst running
  · exact move_stream m ((inv_stateOf_view s).2 inv) noOvf

end Sys2Proof.Proofs

/-! SUPPORT. A guard on a buffer index that fails is `InternalFault` (R52, R216). -/

namespace Sys2Proof.Proofs

open Sys2Proof.Machine

/-! ## What has no complete candidate -/

theorem candidate_of_short {p : List Byte} (short : p.length < 2) : candidate p = none := by
  have noLength : bufRead p 1 = none := List.getElem?_eq_none (by omega)
  simp only [candidate, noLength]

/-- The claimed size decides: it is at least `MIN_FRAME` and not beyond the bytes there are. -/
theorem candidate_cons_cons (a l : Byte) (r : List Byte) :
    candidate (a :: l :: r) =
      if l.toNat + 2 < 4 then none
      else (removeFront (a :: l :: r) (l.toNat + 2)).map fun rest => ((a :: l :: r).take (l.toNat + 2), rest) := rfl

theorem candidate_of_lengthBelowMinimum {p : List Byte} (small : ∃ a l r, p = a :: l :: r ∧ l.toNat + 2 < 4) :
    candidate p = none := by
  obtain ⟨a, l, r, rfl, small⟩ := small
  rw [candidate_cons_cons, if_pos small]

theorem candidate_of_incomplete {p : List Byte} (few : ∃ a l r, p = a :: l :: r ∧ p.length < l.toNat + 2) :
    candidate p = none := by
  obtain ⟨a, l, r, rfl, few⟩ := few
  have cut : removeFront (a :: l :: r) (l.toNat + 2) = none := if_neg (Nat.not_le_of_lt few)
  rw [candidate_cons_cons, cut, Option.map_none, ite_self]

/-! ## The guards of the reader's micro-operations (log entry 13) -/

theorem moveOldest_empty {s : State} (empty : s.pend = []) : moveOldest s = .error (internalFault s) := by
  simp only [moveOldest, empty, popFront]

theorem exec_rdPopshort_of_empty {s : State} (empty : s.pend = []) :
    exec .rdPopshort s = .next (internalFault s) := by
  simp only [exec, execRdPopshort, moveOldest_empty empty]

theorem exec_rdAccept_of_noCandidate {s : State} (none_ : candidate s.pend = none) :
    exec .rdAccept s = .next (internalFault s) := by
  simp only [exec, execRdAccept, none_]

theorem exec_rdPopbad_of_noCandidate {s : State} (none_ : candidate s.pend = none) :
    exec .rdPopbad s = .next (internalFault s) := by
  simp only [exec, execRdPopbad, none_]

theorem exec_rdAhead_of_notHeld {s : State} (none_ : s.pres = none) :
    exec .rdAhead s = .next (internalFault s) := by
  simp only [exec, execRdAhead, none_]

/-- Settles O44: `PopFront` fails on an empty `PEND`, and each clause about the length byte leaves no candidate. -/
theorem failedGuardsAreInternalFaults : Obligations.FailedGuardsAreInternalFaults := by
  unfold Obligations.FailedGuardsAreInternalFaults
  intro s
  have judged : candidate s.pend = none →
      exec .rdAccept s = .next (internalFault s) ∧ exec .rdPopbad s = .next (internalFault s) :=
    fun none_ => ⟨exec_rdAccept_of_noCandidate none_, exec_rdPopbad_of_noCandidate none_⟩
  exact ⟨exec_rdPopshort_of_empty,
    fun few => judged (few.elim candidate_of_short candidate_of_incomplete),
    fun small => judged (candidate_of_lengthBelowMinimum small),
    exec_rdAhead_of_notHeld⟩

end Sys2Proof.Proofs

/-! SUPPORT. Which micro-operation the reader's state selects (R150, R165) and what the reader's turn does with it
(R54). -/

namespace Sys2Proof.Proofs

open Sys2Proof.Machine Sys2Proof.Laws

section
variable {s : State}

/-! ## The selection outside the inspection -/

theorem microOp_idle (rs : s.rs = .idle) : microOp s = .wait := by simp only [microOp, rs]

theorem microOp_decide (rs : s.rs = .fetch .decide) : microOp s = .run .rdFetch := by simp only [microOp, rs]

theorem microOp_byte {b : Byte} (rs : s.rs = .fetch (.byte b)) : microOp s = .run (.rdByte b) := by
  simp only [microOp, rs]

theorem microOp_fail (rs : s.rs = .fetch .fail) : microOp s = .run .rdFail := by simp only [microOp, rs]

theorem microOp_nodata {a : NoData} (rs : s.rs = .nodata a) : microOp s = .run (.rdNodata a) := by
  simp only [microOp, rs]

/-- A real fetch that waits goes on exactly while the ingress is ready for a deposit (R134, R143). -/
theorem microOp_wait {m : FetchMode} (rs : s.rs = .fetch (.wait m)) :
    microOp s = if rxReady s then .wait else .run .rdFetch := by
  simp only [microOp, rs]

theorem rxReady_iff : rxReady s = true ↔ s.slot = .empty ∧ s.closed = false := by
  simp [rxReady]

theorem microOp_wait_ends {m : FetchMode} (rs : s.rs = .fetch (.wait m))
    (ends : s.slot ≠ .empty ∨ s.closed = true) : microOp s = .run .rdFetch := by
  have notReady : ¬ rxReady s = true := fun ready => by
    obtain ⟨slot, opened⟩ := rxReady_iff.1 ready
    simp [slot, opened] at ends
  rw [microOp_wait rs, if_neg notReady]

theorem microOp_wait_goesOn {m : FetchMode} (rs : s.rs = .fetch (.wait m)) (slot : s.slot = .empty)
    (opened : s.closed = false) : microOp s = .wait := by
  rw [microOp_wait rs, if_pos (rxReady_iff.2 ⟨slot, opened⟩)]

/-! `RS_FINISH`: something is buffered, or not and the stream has ended, or neither. -/

theorem microOp_finish (rs : s.rs = .finish) :
    microOp s =
      if 0 < s.corr.length + s.pend.length then .run .rdFlush
      else if s.eosr then .run .rdNull
      else .internalFault := by
  simp only [microOp, rs]

theorem microOp_finish_iff (rs : s.rs = .finish) :
    (microOp s = .run .rdFlush ↔ 0 < s.corr.length + s.pend.length) ∧
    (microOp s = .run .rdNull ↔ s.corr = [] ∧ s.pend = [] ∧ s.eosr = true) ∧
    (microOp s = .internalFault ↔ s.corr = [] ∧ s.pend = [] ∧ s.eosr = false) := by
  rw [microOp_finish rs]
  by_cases found : 0 < s.corr.length + s.pend.length
  · have buffered : ¬ (s.corr = [] ∧ s.pend = []) := fun ⟨corr, pend⟩ => by simp [corr, pend] at found
    rw [if_pos found]
    exact ⟨iff_of_true rfl found, iff_of_false nofun fun ⟨corr, pend, _⟩ => buffered ⟨corr, pend⟩,
      iff_of_false nofun fun ⟨corr, pend, _⟩ => buffered ⟨corr, pend⟩⟩
  · obtain ⟨corr, pend⟩ : s.corr = [] ∧ s.pend = [] := by simpa using found
    rw [if_neg found]
    cases ended : s.eosr <;> simp [corr, pend]

/-! ## The reader's turn -/

theorem step_reader (turn : nextTurn s = .rsy) : step s = readerTurn (popTurn s) := by
  simp only [step, turn, takeTurn]

/-- The selection does not depend on the schedule. -/
theorem microOp_popTurn (s : State) : microOp (popTurn s) = microOp s := rfl

theorem readerTurn_run {i : Instr} (selected : microOp s = .run i) : readerTurn s = exec i s := by
  simp only [readerTurn, selected]

theorem readerTurn_internalFault (selected : microOp s = .internalFault) :
    readerTurn s = .next (internalFault s) := by
  simp only [readerTurn, selected]

theorem readerTurn_wait (selected : microOp s = .wait) : readerTurn s = .next s := by
  simp only [readerTurn, selected]

end

/-- Settles O47: the selection point by point, then the reader's turn for each kind of selection. -/
theorem stepRunsTheReadersMicroOperation : Obligations.StepRunsTheReadersMicroOperation := by
  unfold Obligations.StepRunsTheReadersMicroOperation
  intro s
  refine ⟨microOp_idle, microOp_decide, fun _ rs => ⟨microOp_wait_ends rs, microOp_wait_goesOn rs⟩,
    fun _ => microOp_byte, microOp_fail, fun _ => microOp_nodata, microOp_finish_iff, fun turn => ?_⟩
  rw [step_reader turn, ← microOp_popTurn]
  exact ⟨fun _ => readerTurn_run, readerTurn_internalFault, readerTurn_wait⟩

end Sys2Proof.Proofs

/-! SUPPORT. The decoder of 30_encoding.md: the frame at the front of a byte stream (R70 to R73), and the opcode map
of the command words (R77, R78). -/

namespace Sys2Proof.Proofs

open Sys2Proof.Machine Sys2Proof.Laws

/-! ## The wire format -/

/-- A frame of the wire format is decoded, and what stands behind it is left (R70, R72). -/
theorem decodeWire_wireBytes_append {f : Frame} (rest : List Byte) (size : f.payload.length ≤ 253) :
    decodeWire (wireBytes f ++ rest) = .ok (.frame f.src f.dst f.payload, rest) := by
  have window : (wireBytes f ++ rest).take (f.payload.length + 4) = wireBytes f :=
    List.take_left' (wireBytes_length f)
  have behind : (wireBytes f ++ rest).drop (f.payload.length + 4) = rest :=
    List.drop_left' (wireBytes_length f)
  have sum : xor8 ((wireBytes f ++ rest).take (f.payload.length + 4)) = 0 := by rw [window, xor8_wireBytes]
  have complete : f.payload.length + 4 ≤ (wireBytes f ++ rest).length := by simp
  rw [wireBytes_eq] at *
  simp only [List.cons_append] at *
  rw [decodeWire, expectedSize_lenByte size, if_neg (by simp), if_neg (Nat.not_lt.2 complete), if_neg (not_not.2 sum),
    behind, lenByte_toNat size]
  simp

/-- What decodes begins with a frame of the wire format (R70, R71, R73). -/
theorem exists_wireBytes_of_decodeWire {bytes : List Byte} {x : Instr × List Byte}
    (decoded : decodeWire bytes = .ok x) :
    ∃ f rest, f.payload.length ≤ 253 ∧ bytes = wireBytes f ++ rest := by
  unfold decodeWire at decoded
  split at decoded
  case h_2 => cases decoded
  case h_1 src len tail =>
    split at decoded
    · cases decoded
    · split at decoded
      · cases decoded
      · split at decoded
        · cases decoded
        · rename_i above complete sum
          obtain ⟨f, size, window⟩ := frame_of_window (p := src :: len :: tail) rfl (Nat.not_lt.1 above)
            (Nat.not_lt.1 complete) (not_not.1 sum)
          exact ⟨f, _, size, by rw [← window, List.take_append_drop]⟩

/-- The decoder of the wire format, from both sides. -/
theorem decodeWire_eq_ok_iff {bytes rest : List Byte} {i : Instr} :
    decodeWire bytes = .ok (i, rest) ↔
      ∃ f, f.payload.length ≤ 253 ∧ i = .frame f.src f.dst f.payload ∧ bytes = wireBytes f ++ rest := by
  constructor
  · intro decoded
    obtain ⟨f, behind, size, rfl⟩ := exists_wireBytes_of_decodeWire decoded
    rw [decodeWire_wireBytes_append behind size] at decoded
    cases decoded
    exact ⟨f, size, rfl, rfl⟩
  · rintro ⟨f, size, rfl, rfl⟩
    exact decodeWire_wireBytes_append rest size

/-- A byte sequence decodes as one frame when nothing stands behind the frame at its front. -/
theorem decode_wire_eq_ok_iff {bytes : List Byte} {i : Instr} :
    decode (.wire bytes) = .ok i ↔ decodeWire bytes = .ok (i, []) := by
  cases decoded : decodeWire bytes with
  | error r => simp [decode, decoded]
  | ok x =>
    obtain ⟨j, rest⟩ := x
    cases rest <;> simp [decode, decoded]

/-- Settles O3: the decoder cuts a stream at the end of its first frame. -/
theorem wireFrameIsCutAtItsLength : Obligations.WireFrameIsCutAtItsLength := by
  unfold Obligations.WireFrameIsCutAtItsLength
  exact fun _ rest size => decodeWire_wireBytes_append rest size

/-- Settles O2: what decodes with nothing behind it is the wire form of one frame, and that is its encoding. -/
theorem wireBytesThatDecodeEncodeBack : Obligations.WireBytesThatDecodeEncodeBack := by
  unfold Obligations.WireBytesThatDecodeEncodeBack
  intro bytes i decoded
  obtain ⟨f, size, rfl, rfl⟩ := decodeWire_eq_ok_iff.1 (decode_wire_eq_ok_iff.1 decoded)
  exact ⟨decide_eq_true size, by rw [List.append_nil]; rfl⟩

/-! ## The command words -/

theorem cmdN_toNat (cmd : Byte) : (cmdN cmd).toNat = cmd.toNat % 16 := by
  simp [cmdN]

theorem cmdOp_toNat (cmd : Byte) : (cmdOp cmd).toNat = cmd.toNat / 16 := by
  have := cmd.isLt
  simp only [cmdOp, BitVec.extractLsb'_toNat, Nat.shiftRight_eq_div_pow]
  omega

/-- The words of R78 by their numbers. -/
theorem isReservedWord_iff (cmd : Byte) :
    isReservedWord cmd = true ↔
      7 ≤ cmd.toNat / 16 ∨ (cmd.toNat / 16 ≤ 4 ∧ cmd.toNat % 16 ≠ 0) ∨
      (cmd.toNat / 16 = 5 ∧ 4 ≤ cmd.toNat % 16) ∨ (cmd.toNat / 16 = 6 ∧ cmd.toNat % 16 ≠ 0) := by
  simp [isReservedWord, cmdOp_toNat, cmdN_toNat, Nat.one_le_iff_ne_zero, or_assoc]

/-- A row with no free bit matches its own word only. -/
theorem and_mask_all (cmd value : Byte) : (cmd &&& 0xFF == value) = decide (cmd.toNat = value.toNat) := by
  have whole : cmd &&& 0xFF = cmd := BitVec.and_allOnes
  rw [whole, Bool.eq_iff_iff, beq_iff_eq, decide_eq_true_iff, BitVec.toNat_inj]

/-- The row of `RDCR`, whose low two bits are free, matches the words 0x50 to 0x53. -/
theorem and_mask_rdcr (cmd : Byte) : (cmd &&& 0xFC == 0x50) = decide (cmd.toNat / 4 = 20) := by
  have cleared : cmd &&& (0xFC : Byte) = (cmd >>> 2) <<< 2 := by
    ext i hi
    interval_cases i <;> simp
  have word : (0x50 : Byte).toNat = 80 := rfl
  have := cmd.isLt
  rw [cleared, Bool.eq_iff_iff, beq_iff_eq, decide_eq_true_iff, ← BitVec.toNat_inj, word, BitVec.toNat_shiftLeft,
    BitVec.toNat_ushiftRight, Nat.shiftLeft_eq, Nat.shiftRight_eq_div_pow]
  omega

/-- The opcode map (R77, R78), each row by the numbers of its words. -/
theorem decodeCommand_eq (w : CmdWord) :
    decodeCommand w =
      if w.cmd.toNat = 0x00 then .nop
      else if w.cmd.toNat = 0x10 then .enc w.a w.b w.len
      else if w.cmd.toNat = 0x20 then .dec w.len
      else if w.cmd.toNat = 0x30 then .read
      else if w.cmd.toNat = 0x40 then .close
      else if w.cmd.toNat / 4 = 20 then .rdcr (cmdN w.cmd)
      else if w.cmd.toNat = 0x60 then .wrcr (cmdN w.cmd) w.val
      else .reserved w.cmd := by
  simp only [decodeCommand, commandRows, List.find?, and_mask_all, and_mask_rdcr]
  split_ifs <;> simp [*]

/-- The rows of the opcode map leave exactly the words of R78. -/
theorem decodeCommand_eq_reserved_iff (w : CmdWord) :
    decodeCommand w = .reserved w.cmd ↔ isReservedWord w.cmd = true := by
  rw [decodeCommand_eq, isReservedWord_iff]
  split_ifs <;> simp only [false_iff, true_iff] <;> omega

/-- Every command word decodes to a well-formed operation. -/
theorem decodeCommand_wf (w : CmdWord) : (decodeCommand w).wf = true := by
  rw [decodeCommand_eq]
  split_ifs with nop enc dec read close rdcr wrcr
  · rfl
  · rfl
  · rfl
  · rfl
  · rfl
  · exact decide_eq_true (by rw [cmdN_toNat]; omega)
  · exact decide_eq_true (BitVec.eq_of_toNat_eq (by rw [cmdN_toNat, wrcr]; rfl))
  · exact (isReservedWord_iff w.cmd).2 (by omega)

/-- Settles O5: the rows of the opcode map leave exactly the words of R78. -/
theorem reservedWordsAreExactlyThose : Obligations.ReservedWordsAreExactlyThose := by
  unfold Obligations.ReservedWordsAreExactlyThose
  exact fun w => ⟨(decodeCommand_eq_reserved_iff w).trans (isReservedWord_iff w.cmd), rfl, decodeCommand_wf w⟩

/-- Settles O4: each word is a row of the opcode map. -/
theorem commandWordsDecode : Obligations.CommandWordsDecode := by
  unfold Obligations.CommandWordsDecode
  intro a b len val
  simp [decode, decodeCommand_eq, cmdN]

/-! ## Decoding what is encoded -/

/-- A command word as a number, from its two fields (R76). -/
theorem nibbles_toNat (op n : BitVec 4) : (op ++ n).toNat = 16 * op.toNat + n.toNat := by
  rw [BitVec.toNat_append, ← Nat.shiftLeft_add_eq_or_of_lt n.isLt, Nat.shiftLeft_eq]
  omega

@[simp] theorem cmdN_append (op n : BitVec 4) : cmdN (op ++ n) = n := BitVec.extractLsb'_append_eq_right

/-- `RDCR` of an existing register has the register's number in its low field (R77). -/
theorem decodeCommand_rdcr {n : BitVec 4} (register : n.toNat ≤ 3) :
    decodeCommand (plainCommand ((5 : BitVec 4) ++ n)) = .rdcr n := by
  have word : ((5 : BitVec 4) ++ n).toNat = 80 + n.toNat := nibbles_toNat 5 n
  rw [decodeCommand_eq]
  simp only [plainCommand, word, cmdN_append]
  iterate 5 rw [if_neg (by omega)]
  rw [if_pos (by omega)]

@[simp] theorem ofCode_code (k : RxKind) : RxKind.ofCode k.code = k := by
  cases k <;> rfl

theorem decodeIngress_append (k : RxKind) (data : Byte) : decodeIngress (k.code ++ data) = .rxDeposit k data := by
  rw [decodeIngress, BitVec.extractLsb'_append_eq_left, BitVec.extractLsb'_append_eq_right, ofCode_code]

/-- The wire form of a frame decodes to it (R70). -/
theorem decode_wireBytes {f : Frame} (size : f.payload.length ≤ 253) :
    decode (.wire (wireBytes f)) = .ok (.frame f.src f.dst f.payload) :=
  decode_wire_eq_ok_iff.2 (decodeWire_eq_ok_iff.2 ⟨f, size, rfl, (List.append_nil _).symm⟩)

/-- Settles O1: format by format, the micro-operations having no encoding. -/
theorem decodeOfEncodeIsTheOperation : Obligations.DecodeOfEncodeIsTheOperation := by
  unfold Obligations.DecodeOfEncodeIsTheOperation
  intro i t wf encoded
  cases i <;> cases encoded
  case nop | enc | dec | read | close => simp [decode, decodeCommand_eq, plainCommand]
  case rdcr n => exact congrArg Except.ok (decodeCommand_rdcr (of_decide_eq_true wf))
  case wrcr n v =>
    obtain rfl : n = 0 := of_decide_eq_true wf
    simp [decode, decodeCommand_eq, cmdN]
  case reserved cmd => exact congrArg Except.ok ((decodeCommand_eq_reserved_iff (plainCommand cmd)).2 wf)
  case rxDeposit k data => exact congrArg Except.ok (decodeIngress_append k data)
  case frame src dst payload => exact decode_wireBytes (f := ⟨src, dst, payload⟩) (of_decide_eq_true wf)

end Sys2Proof.Proofs

/-! SUPPORT. The turns of the transport, the timer and the system line (R84, R85, R131, R135, R141, R196), and the
link script's `FRAME`. -/

namespace Sys2Proof.Proofs

open Sys2Proof.Machine Sys2Proof.Laws

section
variable {s : State}

/-! ## `FRAME` -/

/-- A frame of the wire format becomes the deposits of its bytes, in order (R85, R110). -/
theorem exec_frame_of_le {src dst : Byte} {payload : List Byte} (size : payload.length ≤ 253) :
    exec (.frame src dst payload) s =
      .next { s with linkQ := (wireBytes ⟨src, dst, payload⟩).map (LinkItem.deposit .byte) ++ s.linkQ } := by
  have encoded : encodeFrame ⟨src, dst, payload⟩ = some (wireBytes ⟨src, dst, payload⟩) := if_pos size
  simp only [exec, execFrame, encoded]

/-- A longer one has no bytes (R111, log entry 17). -/
theorem exec_frame_of_lt {src dst : Byte} {payload : List Byte} (size : 253 < payload.length) :
    exec (.frame src dst payload) s = .next s := by
  have refused : encodeFrame ⟨src, dst, payload⟩ = none := if_neg (Nat.not_le.2 size)
  simp only [exec, execFrame, refused]

/-! ## The transport -/

/-- The slot takes no result while it is full or the ingress is closed (R131, R143). -/
theorem not_rxReady_iff : ¬ rxReady s = true ↔ s.slot ≠ .empty ∨ s.closed = true := by
  rw [rxReady_iff, not_and_or, Bool.not_eq_false]

theorem transportTurn_nil (script : s.linkQ = []) : transportTurn s = .next s := by
  simp only [transportTurn, script]

theorem transportTurn_deposit {kind : RxKind} {data : Byte} {rest : List LinkItem}
    (script : s.linkQ = .deposit kind data :: rest) :
    transportTurn s = if rxReady s then exec (.rxDeposit kind data) { s with linkQ := rest } else .next s := by
  simp only [transportTurn, script]

/-- `EOS` stays in the link script, taken or not (R84, log entry 29). -/
theorem transportTurn_eos {rest : List LinkItem} (script : s.linkQ = .eos :: rest) :
    transportTurn s = if rxReady s then .next { s with slot := .eos } else .next s := by
  simp only [transportTurn, script, exec, execRxDeposit, slotOf]

/-- A pause is discarded only by an untimed fetch that waits with an empty slot (R137, log entry 16). -/
theorem transportTurn_gap {rest : List LinkItem} (script : s.linkQ = .gap :: rest) :
    transportTurn s =
      if s.rs = .fetch (.wait .untimed) ∧ rxReady s then .next { s with linkQ := rest } else .next s := by
  simp only [transportTurn, script]

theorem transportTurn_frame {f : Frame} {rest : List LinkItem} (script : s.linkQ = .frame f :: rest) :
    transportTurn s = exec (.frame f.src f.dst f.payload) { s with linkQ := rest } := by
  simp only [transportTurn, script]

/-! ## The timer -/

theorem dropGap_of_head {q : List LinkItem} (other : q.head? ≠ some .gap) : dropGap q = q := by
  match q with
  | [] | .deposit _ _ :: _ | .eos :: _ | .frame _ :: _ => rfl
  | .gap :: _ => exact absurd rfl other

/-- The last tick of a timed wait consumes the pause at the head of the link script (R84, R137, log entry 16). -/
theorem tickTurn_gap {rest : List LinkItem} (script : s.linkQ = .gap :: rest) (last : timesOut s = true) :
    tickTurn s = exec .tmrTick { s with linkQ := rest } := by
  simp only [tickTurn, if_pos last, script, dropGap]

/-- A tick that meets no pause or ends no wait leaves the link script. -/
theorem tickTurn_keeps (keeps : s.linkQ.head? ≠ some .gap ∨ ¬ timesOut s = true) : tickTurn s = exec .tmrTick s := by
  rcases keeps with noGap | goesOn
  · rw [tickTurn, dropGap_of_head noGap, ite_self]
  · rw [tickTurn, if_neg goesOn]

/-- What keeps a tick from ending a timed wait (R135, R136, R222). -/
theorem not_timesOut_iff :
    ¬ timesOut s = true ↔
      s.rs ≠ .fetch (.wait .timed) ∨ s.slot ≠ .empty ∨ s.closed = true ∨ s.gapcnt + 1 ≠ s.tsnap := by
  rw [timesOut_iff, not_and_or, not_and_or, not_and_or, Bool.not_eq_false, or_assoc, or_assoc]

/-! ## The system line -/

theorem sysTurn_none (free : s.sysWait = none) : sysTurn s = .next s := by
  simp only [sysTurn, free]

theorem sysTurn_enc {src dst : Byte} {len : BitVec 9} (waits : s.sysWait = some (.encData src dst len)) :
    sysTurn s = exec (.enc src dst len) { s with sysWait := none } := by
  simp only [sysTurn, waits]

theorem sysTurn_dec {len : BitVec 9} (waits : s.sysWait = some (.decData len)) :
    sysTurn s = exec (.dec len) { s with sysWait := none } := by
  simp only [sysTurn, waits]

/-- A waiting `CLOSE` answers with the acknowledgement (R141). -/
theorem sysTurn_acknowledged {a : CloseAnswer} (waits : s.sysWait = some .closeAck) (answer : s.closeAns = some a) :
    sysTurn s = .next (closeRespond a { s with sysWait := none }) := by
  simp only [sysTurn, waits, answer]

theorem sysTurn_unacknowledged (waits : s.sysWait = some .closeAck) (answer : s.closeAns = none) :
    sysTurn s = .next s := by
  simp only [sysTurn, waits, answer]

/-! ## The step of a turn -/

theorem step_of_turn {n : Turn} (turn : nextTurn s = n) : step s = takeTurn n (popTurn s) := by
  rw [step, turn]

end

/-- Settles O30: within the size of the wire format the item becomes its deposits, beyond it nothing. -/
theorem frameStandsForItsBytes : Obligations.FrameStandsForItsBytes := by
  unfold Obligations.FrameStandsForItsBytes
  exact fun _ _ _ _ => ⟨exec_frame_of_le, exec_frame_of_lt⟩

/-- Settles O48: the turn of each agent, item by item of the link script and command by command of the system line. -/
theorem stepRunsDepositsTicksAndWaitingCommands : Obligations.StepRunsDepositsTicksAndWaitingCommands := by
  unfold Obligations.StepRunsDepositsTicksAndWaitingCommands
  intro s
  refine ⟨fun kind data rest turn script slot closed => ?deposited, fun kind data rest turn script full => ?offered,
    fun f rest turn script => ?frame, fun rest turn script => ?eos, fun rest turn script => ?gap,
    fun turn script => ?silent, fun turn => ?tick, fun a turn => ?closeAck, fun src dst len turn waits => ?enc,
    fun len turn waits => ?dec, fun turn waits => ?close, fun turn free => ?free⟩ <;> rw [step_of_turn turn]
  case deposited =>
    exact (transportTurn_deposit (s := popTurn s) script).trans (if_pos (rxReady_iff.2 ⟨slot, closed⟩))
  case offered => exact (transportTurn_deposit (s := popTurn s) script).trans (if_neg (not_rxReady_iff.2 full))
  case frame => exact transportTurn_frame (s := popTurn s) script
  case eos =>
    have turned := transportTurn_eos (s := popTurn s) script
    exact ⟨fun slot closed => turned.trans (if_pos (rxReady_iff.2 ⟨slot, closed⟩)),
      fun full => turned.trans (if_neg (not_rxReady_iff.2 full))⟩
  case gap =>
    have turned := transportTurn_gap (s := popTurn s) script
    exact ⟨fun rs slot closed => turned.trans (if_pos ⟨rs, rxReady_iff.2 ⟨slot, closed⟩⟩),
      fun stays => turned.trans (if_neg (not_and_or.2 (stays.imp_right not_rxReady_iff.2)))⟩
  case silent => exact transportTurn_nil (s := popTurn s) script
  case tick =>
    exact ⟨fun rest script rs slot closed last =>
        tickTurn_gap (s := popTurn s) script ((timesOut_iff _).2 ⟨⟨rs, slot, closed⟩, last⟩),
      fun keeps => tickTurn_keeps (s := popTurn s) (keeps.imp_right not_timesOut_iff.2)⟩
  case closeAck => rfl
  case enc => exact sysTurn_enc (s := popTurn s) waits
  case dec => exact sysTurn_dec (s := popTurn s) waits
  case close =>
    exact ⟨sysTurn_acknowledged (s := popTurn s) waits, sysTurn_acknowledged (s := popTurn s) waits,
      sysTurn_unacknowledged (s := popTurn s) waits⟩
  case free => exact sysTurn_none (s := popTurn s) free

end Sys2Proof.Proofs

/-! SUPPORT. `XOR8` of a reordered, a split and a changed sequence (R102 to R104), and the checksum unit's operations
as its shared evaluation. -/

namespace Sys2Proof.Proofs

open Sys2Proof.Machine Sys2Proof.Laws

/-- The order of the bytes does not show (R104 (d)). -/
theorem xor8_eq_of_perm {s t : List Byte} (reordered : s.Perm t) : xor8 s = xor8 t :=
  reordered.foldl_eq' (fun u _ v _ acc => by rw [BitVec.xor_assoc, BitVec.xor_comm u v, BitVec.xor_assoc]) 0

/-- R103's step: the last byte enters the sum of the bytes before it. -/
theorem xor8_eq_dropLast_xor_getLast {s : List Byte} (nonempty : s ≠ []) :
    xor8 s = xor8 s.dropLast ^^^ s.getLast nonempty := by
  conv_lhs => rw [← List.dropLast_append_getLast nonempty]
  simp

/-- A change `m` of one byte is the same change of the sum. -/
theorem xor8_set_xor {s : List Byte} {i : Nat} (m : Byte) (inside : i < s.length) :
    xor8 (s.set i (s[i] ^^^ m)) = xor8 s ^^^ m := by
  rw [xor8_set s i _ inside, BitVec.xor_assoc, ← BitVec.xor_assoc s[i], BitVec.xor_self, BitVec.zero_xor]

/-- A byte put in the place of another keeps the sum only if it is that byte (R104 (b)). -/
theorem xor8_set_eq_iff {s : List Byte} {i : Nat} {v : Byte} (inside : i < s.length) :
    xor8 (s.set i v) = xor8 s ↔ s[i] = v :=
  calc xor8 (s.set i v) = xor8 s
      ↔ xor8 s ^^^ (s[i] ^^^ v) = xor8 s ^^^ 0#8 := by rw [xor8_set s i v inside, BitVec.xor_assoc, BitVec.xor_zero]
    _ ↔ s[i] ^^^ v = 0#8 := BitVec.xor_right_inj (xor8 s)
    _ ↔ s[i] = v := xor_eq_zero

/-- The same change in two different bytes cancels in the sum (R104 (c)). -/
theorem xor8_set_xor_set_xor {s : List Byte} {i j : Nat} (m : Byte) (hi : i < s.length) (hj : j < s.length)
    (apart : i ≠ j) : xor8 ((s.set i (s[i] ^^^ m)).set j (s[j] ^^^ m)) = xor8 s := by
  have hj' : j < (s.set i (s[i] ^^^ m)).length := by rwa [List.length_set]
  have untouched : (s.set i (s[i] ^^^ m))[j] = s[j] := List.getElem_set_ne apart hj'
  calc xor8 ((s.set i (s[i] ^^^ m)).set j (s[j] ^^^ m))
      = xor8 s ^^^ m ^^^ m := by rw [← untouched, xor8_set_xor m hj', xor8_set_xor m hi]
    _ = xor8 s := by rw [BitVec.xor_assoc, BitVec.xor_self, BitVec.xor_zero]

/-- `CHK.CLR` and then `CHK.ACC` of each byte are the checksum evaluation `chkSum` (R101, R102). -/
theorem chkClr_then_chkAccs_eq_chkSum (bytes : List Byte) (s : State) :
    bytes.foldl (fun t v => after (exec (.chkAcc v) t) t) (after (exec .chkClr s) s) = chkSum bytes s := rfl

/-- Settles O6: the two operations compute `chkSum`, whose sum does not depend on the order. -/
theorem checksumUnitComputesXor8 : Obligations.ChecksumUnitComputesXor8 := by
  unfold Obligations.ChecksumUnitComputesXor8
  refine ⟨fun _ => rfl, fun _ _ => rfl, fun s bytes order reordered => ?_⟩
  rw [chkClr_then_chkAccs_eq_chkSum, chkSum_eq, xor8_eq_of_perm reordered]

/-- Settles O7: the whole sum is the sum before the last byte and that byte, and it is 0 exactly when they are equal. -/
theorem checksumFormsAgree : Obligations.ChecksumFormsAgree := by
  unfold Obligations.ChecksumFormsAgree
  intro s nonempty
  rw [xor8_eq_dropLast_xor_getLast nonempty]
  exact xor_eq_zero.symm

/-- Settles O8: the laws of exclusive-or, and what replacing, changing twice and reordering do to the sum. -/
theorem whatTheChecksumDetects : Obligations.WhatTheChecksumDetects := by
  unfold Obligations.WhatTheChecksumDetects
  refine ⟨fun u v w => ?laws, fun s i v inside changed => ?one, fun s i j m hi hj apart => ?two, fun s t => ?order⟩
  case laws => exact ⟨BitVec.xor_assoc u v w, BitVec.xor_comm u v, BitVec.xor_zero, BitVec.xor_self⟩
  case one => exact mt (xor8_set_eq_iff inside).1 changed
  case two => exact xor8_set_xor_set_xor m hi hj apart
  case order => exact xor8_eq_of_perm

end Sys2Proof.Proofs

/-! SUPPORT. `DEC` as a function of its operand (R112 to R117): each check by itself, what decodes, and what one changed
byte does. -/

namespace Sys2Proof.Proofs

open Sys2Proof.Machine Sys2Proof.Laws

/-! ## The checks in their order (R113) -/

/-- R103 with the checksum byte at its place. -/
theorem xor8_dropLast_eq_getElem_iff {b : List Byte} (last : b.length - 1 < b.length) :
    xor8 b.dropLast = b[b.length - 1] ↔ xor8 b = 0 := by
  have nonempty : b ≠ [] := List.ne_nil_of_length_pos (by omega)
  rw [← List.getLast_eq_getElem nonempty]
  exact checksumFormsAgree b nonempty

theorem decodeFrame_of_short {b : List Byte} (short : b.length < 5) : decodeFrame b = .error .tooShort := by
  rw [decodeFrame, dif_pos short]

/-- The checks of R113 behind the first: the size the length byte claims, and the sum of all bytes (the form of R103
that needs no last byte). -/
theorem decodeFrame_of_long {b : List Byte} (long : 5 ≤ b.length) :
    decodeFrame b =
      if b[1].toNat + 2 ≠ b.length then .error .lengthMismatch
      else if xor8 b ≠ 0 then .error .checksumMismatch
      else .ok { src := b[0], dst := b[2], payload := (b.drop 3).take (b.length - 4) } := by
  have size : declaredLen b[1] + 4 ≠ (b.length : Int) ↔ b[1].toNat + 2 ≠ b.length := by
    rw [declaredLen]
    omega
  have sum : xor8 b.dropLast ≠ b[b.length - 1] ↔ xor8 b ≠ 0 := (xor8_dropLast_eq_getElem_iff (by omega)).not
  rw [decodeFrame, dif_neg (Nat.not_lt.2 long)]
  simp only [Config.overhead, Nat.cast_ofNat, size, sum]
  by_cases claimed : b[1].toNat + 2 = b.length
  · have declared : (declaredLen b[1]).toNat = b.length - 4 := by
      rw [declaredLen]
      omega
    rw [declared]
  · rw [if_pos claimed, if_pos claimed]

theorem decodeFrame_of_size_ne {b : List Byte} (long : 5 ≤ b.length) (size : b[1].toNat + 2 ≠ b.length) :
    decodeFrame b = .error .lengthMismatch := by
  rw [decodeFrame_of_long long, if_pos size]

theorem decodeFrame_of_sum_ne_zero {b : List Byte} (long : 5 ≤ b.length) (size : b[1].toNat + 2 = b.length)
    (sum : xor8 b ≠ 0) : decodeFrame b = .error .checksumMismatch := by
  rw [decodeFrame_of_long long, if_neg (not_not.2 size), if_pos sum]

/-! ## What decodes -/

/-- R114 for a payload of at least one byte. -/
theorem decodeFrame_wireBytes {f : Frame} (some_ : 1 ≤ f.payload.length) (size : f.payload.length ≤ 253) :
    decodeFrame (wireBytes f) = .ok f := by
  have long : 5 ≤ (wireBytes f).length := by
    rw [wireBytes_length]
    omega
  have length : (wireBytes f)[1] = lenByte f.payload.length := by simp [wireBytes_eq]
  rw [decodeFrame_of_long long, if_neg (by rw [length, lenByte_toNat size, wireBytes_length]; simp),
    if_neg (not_not.2 (xor8_wireBytes f))]
  simp [wireBytes_eq]

/-- What passes the three checks is the wire form of a frame with at least one payload byte. -/
theorem exists_wireBytes_of_decodeFrame {b : List Byte} {f : Frame} (decoded : decodeFrame b = .ok f) :
    ∃ g : Frame, 1 ≤ g.payload.length ∧ g.payload.length ≤ 253 ∧ b = wireBytes g := by
  have long : 5 ≤ b.length := by
    by_contra short
    simp [decodeFrame_of_short (Nat.not_le.1 short)] at decoded
  have claimed : b[1].toNat + 2 = b.length := by
    by_contra other
    simp [decodeFrame_of_size_ne long other] at decoded
  have sum : xor8 b = 0 := by
    by_contra other
    simp [decodeFrame_of_sum_ne_zero long claimed other] at decoded
  have shape : b = b[0] :: b[1] :: b.drop 2 := by
    rw [← List.drop_eq_getElem_cons, ← List.drop_eq_getElem_cons, List.drop_zero]
  have whole : b.take (b[1].toNat + 2) = b := List.take_of_length_le claimed.ge
  obtain ⟨g, size, window⟩ := frame_of_window shape (by omega) claimed.le (by rwa [whole])
  rw [whole] at window
  have length := congrArg List.length window
  rw [wireBytes_length] at length
  exact ⟨g, by omega, size, window⟩

/-- `DEC`'s success from both sides. -/
theorem decodeFrame_eq_ok_iff {b : List Byte} {f : Frame} :
    decodeFrame b = .ok f ↔ 1 ≤ f.payload.length ∧ f.payload.length ≤ 253 ∧ b = wireBytes f := by
  constructor
  · intro decoded
    obtain ⟨g, some_, size, rfl⟩ := exists_wireBytes_of_decodeFrame decoded
    rw [decodeFrame_wireBytes some_ size] at decoded
    cases decoded
    exact ⟨some_, size, rfl⟩
  · rintro ⟨some_, size, rfl⟩
    exact decodeFrame_wireBytes some_ size

theorem encodeFrame_of_le {f : Frame} (size : f.payload.length ≤ 253) : encodeFrame f = some (wireBytes f) :=
  if_pos size

/-- Settles O14: what decodes is exactly the wire form of a frame with 1 to 253 payload bytes; the wire form of an
empty payload has 4 bytes. -/
theorem codecRoundTrip : Obligations.CodecRoundTrip := by
  unfold Obligations.CodecRoundTrip
  refine ⟨fun f some_ size => ?decodes, fun f empty => ?empty, fun b f decoded => ?encodes⟩
  case decodes => exact ⟨_, encodeFrame_of_le size, decodeFrame_wireBytes some_ size⟩
  case empty => exact ⟨_, encodeFrame_of_le (by simp [empty]), decodeFrame_of_short (by simp [empty])⟩
  case encodes =>
    obtain ⟨_, size, rfl⟩ := decodeFrame_eq_ok_iff.1 decoded
    exact encodeFrame_of_le size

/-! ## Errors and floors -/

/-- One byte of a good sequence replaced by another value: the length byte then claims another size, and any other
byte changes the sum (R104 (b)). -/
theorem decodeFrame_set_of_ne {b : List Byte} {f : Frame} {i : Nat} {v : Byte} (inside : i < b.length)
    (decoded : decodeFrame b = .ok f) (changed : b[i] ≠ v) :
    decodeFrame (b.set i v) = .error (if i = 1 then .lengthMismatch else .checksumMismatch) := by
  obtain ⟨some_, size, rfl⟩ := decodeFrame_eq_ok_iff.1 decoded
  have long : 5 ≤ ((wireBytes f).set i v).length := by
    rw [List.length_set, wireBytes_length]
    omega
  have claimed : ((wireBytes f)[1]'(by simp)).toNat + 2 = ((wireBytes f).set i v).length := by
    simp [wireBytes_eq, lenByte_toNat size]
  split
  case isTrue length =>
    subst length
    refine decodeFrame_of_size_ne long fun same => changed (BitVec.eq_of_toNat_eq ?_)
    rw [List.getElem_set_self] at same
    omega
  case isFalse other =>
    refine decodeFrame_of_sum_ne_zero long ?_ fun zero => changed ((xor8_set_eq_iff inside).1 ?_)
    · rwa [List.getElem_set_ne other]
    · rw [zero, xor8_wireBytes]

/-- Settles O17: a flipped bit makes another byte. -/
theorem singleBitErrorsAreDetected : Obligations.SingleBitErrorsAreDetected := by
  unfold Obligations.SingleBitErrorsAreDetected
  intro b f i k inside decoded bit
  have flips : (1 : Byte) <<< k ≠ 0 := by interval_cases k <;> decide
  exact decodeFrame_set_of_ne inside decoded fun same => flips (xor_left_eq_self_iff.1 same.symm)

/-- Settles O18: the first check of `DEC`, and the scanner's judgement of a wire form. -/
theorem theTwoFloors : Obligations.TheTwoFloors := by
  unfold Obligations.TheTwoFloors
  exact ⟨fun _ => decodeFrame_of_short, fun _ => judge_wireBytes_append⟩

end Sys2Proof.Proofs

/-! SUPPORT. The commands `ENC` and `DEC` (41_codec.md): what each leaves in every state, and their round trip. -/

namespace Sys2Proof.Proofs

open Sys2Proof.Machine Sys2Proof.Laws

section
variable {s : State} {src dst : Byte} {len : BitVec 9}

/-- Operand bytes that are all on data-in are taken together (log entry 14). -/
theorem takeData_of_le {n : Nat} (there : n ≤ s.hdIn.length) :
    takeData n s = some (s.hdIn.take n, { s with hdIn := s.hdIn.drop n }) :=
  if_neg (Nat.not_lt.2 there)

/-! ## `ENC` -/

/-- A long payload is refused before anything is taken (R111). -/
theorem exec_enc_of_lt (long : 253 < len.toNat) :
    exec (.enc src dst len) s = .next (raise .system .encRange s) := by
  simp only [exec, execEnc, if_pos long]

/-- `ENC` with its payload on data-in (R110). -/
theorem exec_enc_of_le (size : len.toNat ≤ 253) (there : len.toNat ≤ s.hdIn.length) :
    exec (.enc src dst len) s =
      .next (encFinish src dst (s.hdIn.take len.toNat) { s with hdIn := s.hdIn.drop len.toNat }) := by
  simp only [exec, execEnc, if_neg (Nat.not_lt.2 size), takeData_of_le there]

/-- The sum `ENC` evaluates is the checksum byte of the wire form (R70, R110). -/
theorem encFinish_eq (src dst : Byte) (payload : List Byte) (s : State) :
    encFinish src dst payload s = { s with
      fSrc := src, fDst := dst, fPlen := BitVec.ofNat 8 payload.length, fPay := payload
      chkacc := xor8 (headerAndPayload ⟨src, dst, payload⟩), wN := BitVec.ofNat 9 (payload.length + 4)
      wBuf := wireBytes ⟨src, dst, payload⟩
      sr := some { status := .ok,
                   body := .wire (BitVec.ofNat 9 (payload.length + 4)) (wireBytes ⟨src, dst, payload⟩) } } := by
  simp only [encFinish, chkSum_eq]
  rfl

/-- The response of `ENC`: the number of the wire bytes and the wire bytes (R83, R110). -/
theorem exec_enc_answers (src dst : Byte) (size : len.toNat ≤ 253) (there : len.toNat ≤ s.hdIn.length) :
    ∃ t n, exec (.enc src dst len) s = .next t ∧
      t.sr = some { status := .ok, body := .wire n (wireBytes ⟨src, dst, s.hdIn.take len.toNat⟩) } ∧
      n.toNat = len.toNat + 4 := by
  refine ⟨_, _, exec_enc_of_le size there, by rw [encFinish_eq], ?_⟩
  rw [List.length_take_of_le there, BitVec.toNat_ofNat]
  omega

/-! ## `DEC` -/

/-- `DEC` with its operand on data-in (R112). -/
theorem exec_dec_of_le (there : len.toNat ≤ s.hdIn.length) :
    exec (.dec len) s =
      .next (decFinish len (s.hdIn.take len.toNat) { s with hdIn := s.hdIn.drop len.toNat }) := by
  simp only [exec, execDec, takeData_of_le there]

/-- A failed check: its status, and the sum only if the third check was reached (R101, R112). -/
theorem decFinish_of_error {b : List Byte} {e : DecError} (decoded : decodeFrame b = .error e) :
    decFinish len b s = { s with
      wN := len, wBuf := b, chkacc := if e = .checksumMismatch then xor8 b.dropLast else 0
      sr := some { status := e.status, body := .none } } := by
  cases e <;> simp only [decFinish, decSum, decoded, chkSum_eq] <;> rfl

/-- The three checks passed: the frame is the response (R112). -/
theorem decFinish_of_ok {b : List Byte} {f : Frame} (decoded : decodeFrame b = .ok f) :
    decFinish len b s = { s with
      wN := len, wBuf := b, chkacc := xor8 b.dropLast
      fSrc := f.src, fDst := f.dst, fPlen := BitVec.ofNat 8 f.payload.length, fPay := f.payload
      sr := some { status := .ok, body := .frame f.src f.dst (BitVec.ofNat 8 f.payload.length) f.payload } } := by
  simp only [decFinish, decSum, decoded, chkSum_eq]
  rfl

theorem dropLast_wireBytes (f : Frame) : (wireBytes f).dropLast = headerAndPayload f := List.dropLast_concat

/-- `DEC` of the wire form of a frame with at least one payload byte, whatever stands behind it on data-in. -/
theorem exec_dec_wireBytes {f : Frame} {rest : List Byte} (some_ : 1 ≤ f.payload.length)
    (size : f.payload.length ≤ 253) (number : len.toNat = f.payload.length + 4)
    (operand : s.hdIn = wireBytes f ++ rest) :
    exec (.dec len) s = .next { s with
      hdIn := rest, wN := len, wBuf := wireBytes f, chkacc := xor8 (headerAndPayload f)
      fSrc := f.src, fDst := f.dst, fPlen := BitVec.ofNat 8 f.payload.length, fPay := f.payload
      sr := some { status := .ok, body := .frame f.src f.dst (BitVec.ofNat 8 f.payload.length) f.payload } } := by
  have whole : len.toNat = (wireBytes f).length := by rw [wireBytes_length, number]
  have there : len.toNat ≤ s.hdIn.length := by simp [operand, whole]
  rw [exec_dec_of_le there, operand, List.take_left' whole.symm, List.drop_left' whole.symm,
    decFinish_of_ok (decodeFrame_wireBytes some_ size), dropLast_wireBytes]

end

/-! ## The statements about the two commands -/

/-- Settles O10: the size is checked before anything is taken. -/
theorem encRefusesALongPayload : Obligations.EncRefusesALongPayload := by
  unfold Obligations.EncRefusesALongPayload
  exact fun _ _ _ _ => exec_enc_of_lt

/-- Settles O9: the payload leaves data-in, and `encFinish` writes what is left to write. -/
theorem encAnswersTheWireBytes : Obligations.EncAnswersTheWireBytes := by
  unfold Obligations.EncAnswersTheWireBytes
  intro s src dst len size there
  rw [exec_enc_of_le size there, encFinish_eq]
  simp only [wireBytes, headerAndPayload, lenByte, List.length_take_of_le there]

/-- Settles O12: each clause is one outcome of `decodeFrame`. -/
theorem decRaisesTheFirstFailingCheck : Obligations.DecRaisesTheFirstFailingCheck := by
  unfold Obligations.DecRaisesTheFirstFailingCheck
  intro s len there b t
  have length : b.length = len.toNat := List.length_take_of_le there
  rw [exec_dec_of_le there]
  refine ⟨fun short => ?short, fun l second long size => ?size, fun l c second last long size sum => ?sum⟩
  case short =>
    rw [decFinish_of_error (decodeFrame_of_short (length.trans_lt short))]
    rfl
  case size =>
    obtain ⟨_, rfl⟩ := List.getElem?_eq_some_iff.1 second
    rw [decFinish_of_error (decodeFrame_of_size_ne (long.trans_eq length.symm) (by omega))]
    rfl
  case sum =>
    rw [← length] at last sum
    obtain ⟨_, rfl⟩ := List.getElem?_eq_some_iff.1 second
    obtain ⟨lastInside, rfl⟩ := List.getElem?_eq_some_iff.1 last
    rw [← List.dropLast_eq_take] at sum
    have nonzero : xor8 b ≠ 0 := mt (xor8_dropLast_eq_getElem_iff lastInside).2 sum
    rw [decFinish_of_error (decodeFrame_of_sum_ne_zero (long.trans_eq length.symm) (by omega) nonzero),
      List.dropLast_eq_take, length]
    rfl

/-- Settles O13: a sequence that passes the three checks is the wire form of its frame. -/
theorem decReturnsTheFrame : Obligations.DecReturnsTheFrame := by
  unfold Obligations.DecReturnsTheFrame
  intro s len src l dst c payload rest operand number long size sum
  have bound : payload.length ≤ 253 := by omega
  obtain rfl : l = lenByte payload.length := BitVec.eq_of_toNat_eq (by rw [lenByte_toNat bound]; omega)
  subst sum
  have nonempty : 1 ≤ payload.length := by omega
  exact exec_dec_wireBytes (f := ⟨src, dst, payload⟩) nonempty bound number
    (by simpa [wireBytes_eq, headerAndPayload] using operand)

/-- Settles O16: the response holds the wire form of the frame. -/
theorem encodedFramesSumToZero : Obligations.EncodedFramesSumToZero := by
  unfold Obligations.EncodedFramesSumToZero
  intro s src dst len size there
  obtain ⟨t, n, run, answer, number⟩ := exec_enc_answers src dst size there
  have length : (wireBytes ⟨src, dst, s.hdIn.take len.toNat⟩).length = len.toNat + 4 := by
    rw [wireBytes_length, List.length_take_of_le there]
  exact ⟨t, n, _, run, answer, xor8_wireBytes _, length, number.trans length.symm⟩

/-- Settles O15: `ENC` answers the wire form of its frame, and `DEC` of a wire form answers the frame. -/
theorem roundTripThroughTheCommands : Obligations.RoundTripThroughTheCommands := by
  unfold Obligations.RoundTripThroughTheCommands
  intro s u src dst len rest some_ size there
  obtain ⟨t, n, run, answer, number⟩ := exec_enc_answers src dst size there
  have length : (s.hdIn.take len.toNat).length = len.toNat := List.length_take_of_le there
  refine ⟨t, n, _, run, answer, fun operand =>
    ⟨_, exec_dec_wireBytes (some_.trans_eq length.symm) (length.trans_le size) ?number operand, rfl, ?frame⟩⟩
  case number => rw [number, length]
  case frame => rw [length]

end Sys2Proof.Proofs

/-! SUPPORT. The turns of the host (R190, R195, R196, R223, R254). -/

namespace Sys2Proof.Proofs

open Sys2Proof.Machine Sys2Proof.Laws

section
variable {s : State}

/-! ## Acceptance and supplied data -/

theorem accepted_read_iff : accepted .read s = true ↔ s.rs = .idle ∧ s.rr = none := by
  simp [accepted, readReady]

theorem accepted_system_iff {i : Instr} (system : i ≠ .read) :
    accepted i s = true ↔ s.sr = none ∧ s.sysWait = none := by
  simp [accepted, system, sysReady]

/-- Only `ENC` and `DEC` are supplied with data bytes (R196, log entry 20). -/
theorem suppliedData_eq_nil {i : Instr} (data : List Byte) (noEnc : ∀ src dst len, i ≠ .enc src dst len)
    (noDec : ∀ len, i ≠ .dec len) : suppliedData i data = [] := by
  cases i
  case enc src dst len => exact absurd rfl (noEnc src dst len)
  case dec len => exact absurd rfl (noDec len)
  all_goals rfl

/-! ## The command port -/

theorem hostTurn_nil (script : s.hostQ = []) : hostTurn s = .next s := by
  simp only [hostTurn, script]

theorem hostTurn_cons {c : HostCmd} {rest : List HostCmd} (script : s.hostQ = c :: rest) :
    hostTurn s =
      if accepted (decodeCommand c.word) s then exec (decodeCommand c.word) (acceptCommand c rest s) else .next s := by
  simp only [hostTurn, script]

/-! ## The response channels -/

theorem takeSysResponse_of_some {r : SysResp} (offered : s.sr = some r) :
    takeSysResponse s = { s with sr := none, sysLog := s.sysLog ++ [r] } := by
  simp only [takeSysResponse, offered, Option.toList]

theorem takeSysResponse_of_none (empty : s.sr = none) : takeSysResponse s = s := by
  cases s
  cases empty
  simp [takeSysResponse]

theorem takeRdrResponse_of_some {r : RdrResp} (offered : s.rr = some r) :
    takeRdrResponse s = { s with rr := none, rdrLog := s.rdrLog ++ [r] } := by
  simp only [takeRdrResponse, offered, Option.toList]

theorem takeRdrResponse_of_none (empty : s.rr = none) : takeRdrResponse s = s := by
  cases s
  cases empty
  simp [takeRdrResponse]

end

/-- Settles O46: acceptance, supplied data, and the turn of the host on each of its ports. -/
theorem stepRunsTheHostCommand : Obligations.StepRunsTheHostCommand := by
  unfold Obligations.StepRunsTheHostCommand
  intro s
  refine ⟨accepted_read_iff, fun _ => accepted_system_iff, fun _ _ _ _ => rfl, fun _ _ => rfl,
    fun _ => suppliedData_eq_nil, fun c rest i turn script decoded => ?command, fun turn script => ?silent,
    fun bytes turn => ?hostData, fun turn => ?takeSys, fun turn => ?takeRdr⟩ <;> rw [step_of_turn turn]
  case command =>
    obtain rfl : decodeCommand c.word = i := by simpa [decode] using decoded
    have turned := hostTurn_cons (s := popTurn s) script
    exact ⟨fun yes => turned.trans (if_pos yes), fun no => turned.trans (if_neg (ne_true_of_eq_false no))⟩
  case silent => exact hostTurn_nil (s := popTurn s) script
  case hostData => rfl
  case takeSys =>
    exact ⟨fun _ offered => congrArg _ (takeSysResponse_of_some (s := popTurn s) offered),
      fun empty => congrArg _ (takeSysResponse_of_none (s := popTurn s) empty)⟩
  case takeRdr =>
    exact ⟨fun _ offered => congrArg _ (takeRdrResponse_of_some (s := popTurn s) offered),
      fun empty => congrArg _ (takeRdrResponse_of_none (s := popTurn s) empty)⟩

end Sys2Proof.Proofs

/-! SUPPORT. The ingress operation by operation (42_ingress.md): the deposit, the tick, `CLOSE`, and the slot as
`RD.FETCH` finds it; then the timed wait as a whole (R135) and the slot after the end of the stream (R139). -/

namespace Sys2Proof.Proofs

open Sys2Proof.Machine Sys2Proof.Laws

section
variable {s : State}

/-! ## `RX.DEPOSIT` (R131, R143) -/

theorem exec_rxDeposit_of_ready {kind : RxKind} {data : Byte} (ready : rxReady s = true) :
    exec (.rxDeposit kind data) s = .next { s with slot := slotOf kind data } := by
  simp only [exec, execRxDeposit, if_pos ready]

theorem exec_rxDeposit_of_notReady {kind : RxKind} {data : Byte} (notReady : ¬ rxReady s = true) :
    exec (.rxDeposit kind data) s = .next s := by
  simp only [exec, execRxDeposit, if_neg notReady]

/-! ## `TMR.TICK` (R135) -/

/-- A tick counts: a timed wait goes on with nothing to take from the slot. -/
abbrev CountsTicks (s : State) : Prop := s.rs = .fetch (.wait .timed) ∧ s.slot = .empty ∧ s.closed = false

theorem exec_tmrTick_more (counts : CountsTicks s) (more : s.gapcnt + 1 ≠ s.tsnap) :
    exec .tmrTick s = .next { s with gapcnt := s.gapcnt + 1 } := by
  simp only [exec, execTmrTick, if_pos counts, if_neg more]

theorem exec_tmrTick_last (counts : CountsTicks s) (last : s.gapcnt + 1 = s.tsnap) :
    exec .tmrTick s = .next { s with gapcnt := s.tsnap, rs := .nodata .timeout } := by
  simp only [exec, execTmrTick, if_pos counts, last, if_true]

theorem exec_tmrTick_idle (ignores : ¬ CountsTicks s) : exec .tmrTick s = .next s := by
  simp only [exec, execTmrTick, if_neg ignores]

/-! ## `CLOSE` (R141, R142) -/

theorem exec_close_refused (closed : s.closed = true) : exec .close s = .next (raise .system .refused s) := by
  simp only [exec, execClose, if_pos closed]

theorem exec_close_acknowledged {a : CloseAnswer} (opened : s.closed = false) (answer : s.closeAns = some a) :
    exec .close s = .next (closeRespond a { s with closed := true, xpClose := s.xpClose + 1 }) := by
  simp only [exec, execClose, if_neg (ne_true_of_eq_false opened), answer]

theorem exec_close_unacknowledged (opened : s.closed = false) (answer : s.closeAns = none) :
    exec .close s =
      .next { s with closed := true, xpClose := s.xpClose + 1, sysWait := some .closeAck } := by
  simp only [exec, execClose, if_neg (ne_true_of_eq_false opened), answer]

/-! ## `RD.FETCH` and the slot (R133, R134, R157) -/

theorem pollSlot_byte {b : Byte} (slot : s.slot = .byte b) :
    pollSlot s = some { s with slot := .empty, rs := .fetch (.byte b) } := by
  simp only [pollSlot, slot]

theorem pollSlot_eos (slot : s.slot = .eos) : pollSlot s = some { s with slot := .empty, rs := .nodata .eos } := by
  simp only [pollSlot, slot]

theorem pollSlot_err (slot : s.slot = .err) : pollSlot s = some { s with slot := .empty, rs := .fetch .fail } := by
  simp only [pollSlot, slot]

theorem pollSlot_closed (slot : s.slot = .empty) (closed : s.closed = true) :
    pollSlot s = some { s with rs := .fetch .fail } := by
  simp only [pollSlot, slot, if_pos closed]

theorem pollSlot_silent (slot : s.slot = .empty) (opened : s.closed = false) : pollSlot s = none :=
  (pollSlot_none s).2 (rxReady_iff.2 ⟨slot, opened⟩)

/-- Inside a wait `RD.FETCH` only looks at the slot again (R134). -/
theorem exec_rdFetch_wait {m : FetchMode} (rs : s.rs = .fetch (.wait m)) :
    exec .rdFetch s = .next ((pollSlot s).getD s) := by
  simp only [exec, execRdFetch, rs]

/-- Branch (d) of R157: none of the other three applies, and a real fetch is made with `SUSP` clear. -/
theorem exec_rdFetch_asks (rs : s.rs = .fetch .decide)
    (goesOn : s.nomore = false ∨ (s.params.drain = .fullDrain ∧ s.pend ≠ [])) (eosr : s.eosr = false)
    (unsuspended : s.susp = false ∨ s.pend = []) :
    exec .rdFetch s = .next (realFetch (fetchMode s) { s with susp := false }) := by
  have notA : ¬ (s.nomore = true ∧ (s.params.drain = .onePass ∨ s.pend = [])) := by
    rintro ⟨nomore, stops⟩
    rcases goesOn with more | ⟨drain, pend⟩
    · simp [nomore] at more
    · simp [drain, pend] at stops
  have notC : ¬ (s.susp = true ∧ s.pend ≠ []) := by
    rintro ⟨susp, pend⟩
    simp [susp, pend] at unsuspended
  simp only [exec, execRdFetch, rs, fetchDecide, if_neg notA, if_neg (ne_true_of_eq_false eosr), if_neg notC]

/-- A fetch that finds something is answered at once, in either mode. -/
theorem realFetch_of_poll {m : FetchMode} {t : State} (found : pollSlot s = some t) : realFetch m s = t := by
  rw [realFetch, found, Option.getD_some]

theorem realFetch_of_silence {m : FetchMode} (silent : pollSlot s = none) : realFetch m s = beginWait m s := by
  rw [realFetch, silent, Option.getD_none]

end

/-! ## A run of ticks (R135) -/

theorem ticks_succ_last (k : Nat) (s : State) : ticks (k + 1) s = ticks 1 (ticks k s) := by
  induction k generalizing s with
  | zero => rfl
  | succ k ih => exact ih (after (exec .tmrTick s) s)

theorem ticks_one {s t : State} (tick : exec .tmrTick s = .next t) : ticks 1 s = t := by
  simp only [ticks, tick, after]

/-- Short of its end a timed wait has counted the ticks and done nothing else. -/
theorem ticks_before_last {s : State} (counts : CountsTicks s) (k : Nat)
    (early : k < s.tsnap.toNat - s.gapcnt.toNat) :
    ticks k s = { s with gapcnt := s.gapcnt + BitVec.ofNat 16 k } := by
  induction k with
  | zero => simp [ticks]
  | succ k ih =>
    have more : s.gapcnt + BitVec.ofNat 16 k + 1 ≠ s.tsnap := by bv_omega
    have counted : s.gapcnt + BitVec.ofNat 16 k + 1 = s.gapcnt + BitVec.ofNat 16 (k + 1) := by bv_omega
    have tick := exec_tmrTick_more (s := { s with gapcnt := s.gapcnt + BitVec.ofNat 16 k }) counts more
    rw [ticks_succ_last, ih (by omega), ticks_one tick, counted]

/-- The tick that brings `GAPCNT` to `TSNAP` ends the wait. -/
theorem ticks_to_last {s : State} (counts : CountsTicks s) (pending : s.gapcnt.toNat < s.tsnap.toNat) :
    ticks (s.tsnap.toNat - s.gapcnt.toNat) s = { s with gapcnt := s.tsnap, rs := .nodata .timeout } := by
  obtain ⟨k, hk⟩ : ∃ k, s.tsnap.toNat - s.gapcnt.toNat = k + 1 :=
    Nat.exists_eq_add_one.2 (Nat.sub_pos_of_lt pending)
  have last : s.gapcnt + BitVec.ofNat 16 k + 1 = s.tsnap := by bv_omega
  have tick := exec_tmrTick_last (s := { s with gapcnt := s.gapcnt + BitVec.ofNat 16 k }) counts last
  rw [hk, ticks_succ_last, ticks_before_last counts k (by omega), ticks_one tick]

/-- Settles O28: all ticks before the last count, by induction on their number, and the last one answers. -/
theorem timedWaitEndsOnItsLastTick : Obligations.TimedWaitEndsOnItsLastTick := by
  unfold Obligations.TimedWaitEndsOnItsLastTick
  exact fun s rs slot opened pending =>
    ⟨ticks_before_last ⟨rs, slot, opened⟩, ticks_to_last ⟨rs, slot, opened⟩ pending⟩

/-! ## The slot after the end of the stream (R139, R157) -/

/-- A full slot takes no deposit, and no fetch that could empty it is made once `EOSR` is set. -/
theorem move_keeps_slot {c d : View} (m : Move c d) (h : Inv (stateOf c)) (ended : c.eosr = true)
    (full : c.slot ≠ .empty) : d.slot = c.slot := by
  have noPoll : ∀ su, ¬ c.Polls su := fun su polls => by
    obtain ⟨-, -, -, eosr, -⟩ := flags_of_polls h polls
    simp [ended] at eosr
  cases m
  case deposit slot _ | eos slot _ => exact absurd slot full
  case pollByte polls _ | pollEos polls _ | pollErr polls _ => exact absurd polls (noPoll _)
  all_goals rfl

/-- Settles O58: what every move but `rst` does to the slot. -/
theorem endOfStreamIsNeverAskedAgain : Obligations.EndOfStreamIsNeverAskedAgain := by
  unfold Obligations.EndOfStreamIsNeverAskedAgain
  intro s t inv st running ended full
  rcases step_cases st with ⟨rst, -⟩ | ⟨-, m⟩
  · exact absurd rst running
  · exact move_keeps_slot m ((inv_stateOf_view s).2 inv) ended full

/-! ## The operations of the ingress -/

/-- Settles O26: the four kinds on a ready ingress, and the offer that is not taken. -/
theorem depositFillsTheEmptySlot : Obligations.DepositFillsTheEmptySlot := by
  unfold Obligations.DepositFillsTheEmptySlot
  refine fun s data => ⟨fun slot opened => ?_, fun kind full => exec_rxDeposit_of_notReady (not_rxReady_iff.2 full)⟩
  have ready : rxReady s = true := rxReady_iff.2 ⟨slot, opened⟩
  exact ⟨exec_rxDeposit_of_ready ready, exec_rxDeposit_of_ready ready, exec_rxDeposit_of_ready ready,
    exec_rxDeposit_of_ready ready⟩

/-- Settles O27: a tick before the last, the last tick, and a tick outside a timed wait. -/
theorem tickCountsATimedWait : Obligations.TickCountsATimedWait := by
  unfold Obligations.TickCountsATimedWait
  refine fun s => ⟨fun rs slot opened => ?_, fun outside => exec_tmrTick_idle ?_⟩
  · exact ⟨exec_tmrTick_more ⟨rs, slot, opened⟩, exec_tmrTick_last ⟨rs, slot, opened⟩⟩
  · rintro ⟨rs, slot, opened⟩
    simp [rs, slot, opened] at outside

/-- Settles O29: the three answers of the transport to the first `CLOSE`, and the refusal of the second. -/
theorem closeClosesTheIngressOnce : Obligations.CloseClosesTheIngressOnce := by
  unfold Obligations.CloseClosesTheIngressOnce
  exact ⟨fun s opened => ⟨exec_close_acknowledged opened, exec_close_acknowledged opened,
    exec_close_unacknowledged opened⟩, fun s => exec_close_refused⟩

/-! ## `RD.FETCH` -/

/-- Settles O38: a real fetch is made, answered by what the slot holds or by a closed ingress, or it begins a wait. -/
theorem rdFetchAsksTheSlot : Obligations.RdFetchAsksTheSlot := by
  unfold Obligations.RdFetchAsksTheSlot
  intro s rs goesOn eosr unsuspended
  have asks := exec_rdFetch_asks rs goesOn eosr unsuspended
  have found {t : State} (poll : pollSlot { s with susp := false } = some t) : exec .rdFetch s = .next t :=
    asks.trans (congrArg _ (realFetch_of_poll poll))
  have silent (slot : s.slot = .empty) (opened : s.closed = false) :
      exec .rdFetch s = .next (beginWait (fetchMode s) { s with susp := false }) :=
    asks.trans (congrArg _ (realFetch_of_silence (pollSlot_silent slot opened)))
  refine ⟨fun b slot => found (pollSlot_byte slot), fun slot => found (pollSlot_eos slot),
    fun slot => found (pollSlot_err slot), fun slot closed => found (pollSlot_closed slot closed),
    fun slot opened untimed => ?untimed, fun slot opened pend timeout => ?timed⟩ <;> rw [silent slot opened]
  case untimed =>
    have mode : fetchMode s = .untimed := if_pos untimed
    rw [mode, beginWait]
  case timed =>
    have mode : fetchMode s = .timed := if_neg (not_or.2 ⟨pend, timeout⟩)
    rw [mode, beginWait]

/-- Settles O39: the slot is looked at again, whatever the mode. -/
theorem rdFetchInAWait : Obligations.RdFetchInAWait := by
  unfold Obligations.RdFetchInAWait
  intro s m rs
  have polls := exec_rdFetch_wait rs
  have found {t : State} (poll : pollSlot s = some t) : exec .rdFetch s = .next t := by
    rw [polls, poll, Option.getD_some]
  exact ⟨fun b slot => found (pollSlot_byte slot), fun slot => found (pollSlot_eos slot),
    fun slot => found (pollSlot_err slot), fun slot closed => found (pollSlot_closed slot closed),
    fun slot opened => by rw [polls, pollSlot_silent slot opened, Option.getD_none]⟩

end Sys2Proof.Proofs

/-! SUPPORT. The inspection (R150, R153 to R156): when each of its four rules is picked, and what `RD.ACCEPT` does with
the candidate it is picked for (R154, R170). -/

namespace Sys2Proof.Proofs

open Sys2Proof.Machine Sys2Proof.Laws

/-! ## What the inspection finds -/

/-- No length byte yet: more bytes are needed (R156). -/
theorem judge_of_short {p : List Byte} (short : p.length < 2) : judge p = .needMore := by
  have noLength : bufRead p 1 = none := List.getElem?_eq_none (by omega)
  simp only [judge, noLength]

/-- With a length byte its claimed size decides, then the checksum. -/
theorem judge_cons_cons (a l : Byte) (r : List Byte) :
    judge (a :: l :: r) =
      if l.toNat + 2 < 4 then .short
      else if (a :: l :: r).length < l.toNat + 2 then .needMore
      else if xor8 ((a :: l :: r).take (l.toNat + 2)) = 0 then .accept
      else .bad := rfl

/-- Each verdict of the inspection under its own condition: the four exclude each other, and one always holds. -/
theorem judge_iff (p : List Byte) :
    (judge p = .short ↔ ∃ a l r, p = a :: l :: r ∧ l.toNat + 2 < 4) ∧
    (judge p = .accept ↔ ∃ a l r, p = a :: l :: r ∧ 4 ≤ l.toNat + 2 ∧ l.toNat + 2 ≤ p.length ∧
      xor8 (p.take (l.toNat + 2)) = 0) ∧
    (judge p = .bad ↔ ∃ a l r, p = a :: l :: r ∧ 4 ≤ l.toNat + 2 ∧ l.toNat + 2 ≤ p.length ∧
      xor8 (p.take (l.toNat + 2)) ≠ 0) ∧
    (judge p = .needMore ↔ p.length < 2 ∨
      ∃ a l r, p = a :: l :: r ∧ 4 ≤ l.toNat + 2 ∧ p.length < l.toNat + 2) := by
  match p with
  | [] | [_] => simp [judge_of_short]
  | a :: l :: r =>
    have front {C : Byte → Prop} : (∃ a' l' r', a :: l :: r = a' :: l' :: r' ∧ C l') ↔ C l := by simp
    simp only [front, judge_cons_cons, ← Nat.not_lt, ne_eq]
    by_cases small : l.toNat + 2 < 4
    · simp only [small]; simp
    by_cases few : (a :: l :: r).length < l.toNat + 2
    · simp only [small, few]; simp
    by_cases sum : xor8 ((a :: l :: r).take (l.toNat + 2)) = 0
    · simp only [small, few, sum]; simp
    · simp only [small, few, sum]; simp

/-- The micro-operation of a verdict (R153 to R156). -/
def ruleOf : Verdict → Instr
  | .short => .rdPopshort
  | .accept => .rdAccept
  | .bad => .rdPopbad
  | .needMore => .rdNeedmore

theorem ruleOf_inj {v w : Verdict} : ruleOf v = ruleOf w ↔ v = w := by
  cases v <;> cases w <;> simp [ruleOf]

/-- In the inspection the verdict selects the micro-operation (R150). -/
theorem microOp_inspect {s : State} (rs : s.rs = .inspect) : microOp s = .run (ruleOf (judge s.pend)) := by
  simp only [microOp, rs]
  cases judge s.pend <;> rfl

theorem microOp_inspect_iff {s : State} (rs : s.rs = .inspect) (v : Verdict) :
    microOp s = .run (ruleOf v) ↔ judge s.pend = v := by
  rw [microOp_inspect rs, Micro.run.injEq, ruleOf_inj]

/-- Settles O36: the verdict selects the rule, and each verdict has its own condition. -/
theorem inspectionPicksExactlyOneRule : Obligations.InspectionPicksExactlyOneRule := by
  unfold Obligations.InspectionPicksExactlyOneRule
  intro s rs
  obtain ⟨short, accept, bad, needMore⟩ := judge_iff s.pend
  have picks := microOp_inspect_iff rs
  refine ⟨(picks .short).trans short, (picks .accept).trans accept, (picks .bad).trans bad,
    (picks .needMore).trans needMore, ?_⟩
  rw [microOp_inspect rs]
  cases judge s.pend <;> simp [ruleOf]

/-! ## `RD.ACCEPT` (R154, R170) -/

section
variable {s : State} {raw rest : List Byte} {f : Frame}

/-- With an empty `CORR` the candidate's frame is the element. -/
theorem exec_rdAccept_clean (cut : candidate s.pend = some (raw, rest)) (frame : frameOf raw = some f)
    (corr : s.corr = []) :
    exec .rdAccept s =
      .next (respondElement (validElement f raw) { s with chkacc := xor8 raw, pend := rest }) := by
  simp only [exec, execRdAccept, cut, frame, chkSum_eq, if_pos corr]

/-- Behind noise the candidate's frame is held and the noise is the element. -/
theorem exec_rdAccept_noisy (cut : candidate s.pend = some (raw, rest)) (frame : frameOf raw = some f)
    (corr : s.corr ≠ []) :
    exec .rdAccept s =
      .next (respondElement (.invalid s.corr)
        { s with chkacc := xor8 raw, pend := rest, corr := [], pres := some f }) := by
  simp only [exec, execRdAccept, cut, frame, chkSum_eq, if_neg corr]

end

/-- A candidate written out is cut where its length byte says. -/
theorem candidate_append {src l dst c : Byte} {payload : List Byte} (rest : List Byte)
    (size : l.toNat + 2 = payload.length + 4) :
    candidate (src :: l :: dst :: (payload ++ c :: rest)) = some (src :: l :: dst :: (payload ++ [c]), rest) := by
  have split : src :: l :: dst :: (payload ++ c :: rest) = (src :: l :: dst :: (payload ++ [c])) ++ rest := by simp
  have length : (src :: l :: dst :: (payload ++ [c])).length = l.toNat + 2 := by simp [size]
  rw [candidate_some rfl (by omega) (by simp; omega), split, List.take_left' length, List.drop_left' length]

/-- Settles O34: the candidate is cut and read as a frame, then the two cases of `CORR`. -/
theorem rdAcceptTakesTheCandidate : Obligations.RdAcceptTakesTheCandidate := by
  unfold Obligations.RdAcceptTakesTheCandidate
  intro s src l dst c payload rest pend size
  have cut := (congrArg candidate pend).trans (candidate_append rest size)
  have frame : frameOf (src :: l :: dst :: (payload ++ [c])) = some ⟨src, dst, payload⟩ := by simp [frameOf]
  exact ⟨exec_rdAccept_clean cut frame, exec_rdAccept_noisy cut frame⟩

/-- At the fetch point the micro-operation is `RD.FETCH` or handles its answer, or the fetch waits (R157, R134). -/
theorem microOp_fetch_cases {s : State} {p : FetchPhase} (rs : s.rs = .fetch p) :
    microOp s = .wait ∨ microOp s = .run .rdFetch ∨ (∃ b, microOp s = .run (.rdByte b)) ∨
      microOp s = .run .rdFail := by
  cases p with
  | decide => exact .inr (.inl (microOp_decide rs))
  | wait m =>
    rw [microOp_wait rs]
    cases rxReady s <;> simp
  | byte b => exact .inr (.inr (.inl ⟨b, microOp_byte rs⟩))
  | fail => exact .inr (.inr (.inr (microOp_fail rs)))

/-- The inspection is the only place where `RD.ACCEPT` is selected (R150). -/
theorem inspect_of_microOp_rdAccept {s : State} (selected : microOp s = .run .rdAccept) : s.rs = .inspect := by
  cases rs : s.rs with
  | inspect => rfl
  | idle => simp [microOp_idle rs] at selected
  | fetch p => rcases microOp_fetch_cases rs with e | e | ⟨b, e⟩ | e <;> simp [e] at selected
  | nodata a => simp [microOp_nodata rs] at selected
  | finish =>
    rw [microOp_finish rs] at selected
    split_ifs at selected <;> cases selected

/-- An accepted candidate is the wire form of a frame that fits (R170). -/
theorem candidate_of_accept {p : List Byte} (accepts : judge p = .accept) :
    ∃ f rest, f.payload.length ≤ 253 ∧ p = wireBytes f ++ rest ∧ candidate p = some (wireBytes f, rest) := by
  obtain ⟨-, accept, -, -⟩ := judge_iff p
  obtain ⟨a, l, r, front, large, whole, sum⟩ := accept.1 accepts
  obtain ⟨f, size, window⟩ := frame_of_window front large whole sum
  refine ⟨f, p.drop (l.toNat + 2), size, ?_, ?_⟩ <;> rw [← window]
  · exact (List.take_append_drop _ _).symm
  · exact candidate_some front large whole

/-- Settles O45: the accepted candidate is a frame's wire form, and `RD.ACCEPT` returns or holds that frame. -/
theorem recognisedFramesAreReencoded : Obligations.RecognisedFramesAreReencoded := by
  unfold Obligations.RecognisedFramesAreReencoded
  intro s selected
  have rs := inspect_of_microOp_rdAccept selected
  obtain ⟨f, rest, size, pend, cut⟩ := candidate_of_accept ((microOp_inspect_iff rs .accept).1 selected)
  by_cases corr : s.corr = []
  · exact ⟨_, f, exec_rdAccept_clean cut (frameOf_wireBytes f) corr, size, pend, corr, fun _ => ⟨rfl, rfl⟩,
      fun noisy => absurd corr noisy⟩
  · exact ⟨_, f, exec_rdAccept_noisy cut (frameOf_wireBytes f) corr, size, pend, rfl,
      fun clean => absurd clean corr, fun _ => ⟨rfl, rfl⟩⟩

end Sys2Proof.Proofs

/-! SUPPORT. The moves of bytes from `PEND` to `CORR` (R153, R155, R160) with room in `CORR` and without (R166). -/

namespace Sys2Proof.Proofs

open Sys2Proof.Machine Sys2Proof.Laws

section
variable {s t : State}

/-! ## The move of all bytes -/

/-- With room for every byte all of them reach `CORR`. -/
theorem moveAll_of_room (room : ∀ k, k < s.pend.length → s.params.corrCap ≠ some (s.corr.length + k)) :
    moveAll s.pend s = .ok { s with pend := [], corr := s.corr ++ s.pend } := by
  rcases moveAll_cases s.pend s rfl with moved | ⟨before, v, rest, split, full, -⟩
  · exact moved
  · exact absurd (by simpa using full) (room before.length (by simp [split]))

/-- The byte that finds `CORR` full is lost; those before it are moved, those behind it stay (R166). -/
theorem moveAll_of_full {before rest : List Byte} {v : Byte} (pend : s.pend = before ++ v :: rest)
    (full : s.params.corrCap = some (s.corr.length + before.length)) :
    moveAll s.pend s = .error (overflow { s with pend := rest, corr := s.corr ++ before }) := by
  rw [pend]
  clear pend
  induction before generalizing s with
  | nil =>
    simp only [List.nil_append, moveAll, pushCorr_full (s := { s with pend := rest }) full, List.append_nil]
  | cons w before ih =>
    have room : s.params.corrCap ≠ some s.corr.length := by simp [full]
    have full' : s.params.corrCap = some ((s.corr ++ [w]).length + before.length) := by
      simp [full]; omega
    have moved := ih (s := { s with pend := before ++ v :: rest, corr := s.corr ++ [w] }) full'
    simp only [List.cons_append, moveAll, pushCorr_room (s := { s with pend := before ++ v :: rest }) room, moved,
      List.append_assoc, List.nil_append]

/-! ## The operations that push -/

theorem exec_rdPopshort_of_ok (moved : moveOldest s = .ok t) :
    exec .rdPopshort s = .next { t with rs := .inspect } := by
  simp only [exec, execRdPopshort, moved]

theorem exec_rdPopshort_of_error (stopped : moveOldest s = .error t) : exec .rdPopshort s = .next t := by
  simp only [exec, execRdPopshort, stopped]

section
variable {raw rest : List Byte} (cut : candidate s.pend = some (raw, rest))
include cut

/-- The sum of the candidate is in `CHKACC` before the byte is moved (R155, log entry 7). -/
theorem exec_rdPopbad_of_ok (moved : moveOldest { s with chkacc := xor8 raw } = .ok t) :
    exec .rdPopbad s = .next { t with rs := .inspect } := by
  simp only [exec, execRdPopbad, cut, chkSum_eq, moved]

theorem exec_rdPopbad_of_error (stopped : moveOldest { s with chkacc := xor8 raw } = .error t) :
    exec .rdPopbad s = .next t := by
  simp only [exec, execRdPopbad, cut, chkSum_eq, stopped]

end

/-- `SUSP` is written only after the moves (R160). -/
theorem exec_rdNodata_of_ok {a : NoData} (moved : noDataMove (noDataFlags a s) = .ok t) :
    exec (.rdNodata a) s = .next { t with susp := true, rs := .inspect } := by
  simp only [exec, execRdNodata, moved]

theorem exec_rdNodata_of_error {a : NoData} (stopped : noDataMove (noDataFlags a s) = .error t) :
    exec (.rdNodata a) s = .next t := by
  simp only [exec, execRdNodata, stopped]

theorem noDataMove_few {a : NoData} (few : s.pend.length ≤ 4) :
    noDataMove (noDataFlags a s) = moveAll (noDataFlags a s).pend (noDataFlags a s) := if_pos few

theorem noDataMove_many {a : NoData} (many : 4 < s.pend.length) :
    noDataMove (noDataFlags a s) = moveOldest (noDataFlags a s) := if_neg (Nat.not_le_of_lt many)

end

/-- Settles O33: the front byte is moved, by `RD.POPBAD` after the checksum evaluation of its candidate. -/
theorem rejectedCandidatesLoseTheirFrontByte : Obligations.RejectedCandidatesLoseTheirFrontByte := by
  unfold Obligations.RejectedCandidatesLoseTheirFrontByte
  refine ⟨fun s v rest pend room => ?popshort, fun s v l rest pend large whole room => ?popbad⟩
  case popshort => exact exec_rdPopshort_of_ok (moveOldest_room pend room)
  case popbad =>
    have moved := moveOldest_room (s := { s with chkacc := xor8 (s.pend.take (l.toNat + 2)) }) pend room
    exact exec_rdPopbad_of_ok (candidate_some pend large whole) moved

/-- Settles O40: a short `PEND` moves as a whole, a longer one loses its front byte. -/
theorem rdNodataMovesAllOrTheOldest : Obligations.RdNodataMovesAllOrTheOldest := by
  unfold Obligations.RdNodataMovesAllOrTheOldest
  refine fun s a => ⟨fun few room => ?_, fun v rest pend many room => ?_⟩
  · have moved := moveAll_of_room (s := noDataFlags a s) room
    exact exec_rdNodata_of_ok ((noDataMove_few few).trans moved)
  · have moved := moveOldest_room (s := noDataFlags a s) pend room
    exact exec_rdNodata_of_ok ((noDataMove_many many).trans moved)

/-- Settles O41: the push that finds `CORR` full ends each operation with `RD.OVF`. -/
theorem overflowLosesThePushedByte : Obligations.OverflowLosesThePushedByte := by
  unfold Obligations.OverflowLosesThePushedByte
  refine fun s => ⟨rfl, fun v rest pend full => ?popshort, fun v l rest pend large whole full => ?popbad,
    fun a before v rest pend few full => ?nodataAll, fun a v rest pend many full => ?nodataOne⟩
  case popshort => exact exec_rdPopshort_of_error (moveOldest_full pend full)
  case popbad =>
    have stopped := moveOldest_full (s := { s with chkacc := xor8 (s.pend.take (l.toNat + 2)) }) pend full
    exact exec_rdPopbad_of_error (candidate_some pend large whole) stopped
  case nodataAll =>
    have stopped := moveAll_of_full (s := noDataFlags a s) pend full
    exact exec_rdNodata_of_error ((noDataMove_few few).trans stopped)
  case nodataOne =>
    have stopped := moveOldest_full (s := noDataFlags a s) pend full
    exact exec_rdNodata_of_error ((noDataMove_many many).trans stopped)

end Sys2Proof.Proofs

/-! SUPPORT. The start of a `READ` (R150 to R152), the fetch point where the source is not asked (R157), the operations
that end a `READ` (R161 to R163), and why none of them is `InternalFault` (R167, R216). -/

namespace Sys2Proof.Proofs

open Sys2Proof.Machine Sys2Proof.Laws

section
variable {s : State}

/-! ## The start of a `READ` (R150 to R152) -/

theorem exec_rdAhead_of_held {f : Frame} (held : s.pres = some f) : exec .rdAhead s = .next (deliverHeld f s) := by
  simp only [exec, execRdAhead, held]

/-- An exception at the start of a `READ` changes no state: the reader is idle already (R152). -/
theorem raise_reader_of_idle (st : Status) (idle : s.rs = .idle) :
    raise .reader st s = { s with rr := some { status := st, elem := none } } := by
  cases s
  cases idle
  rfl

section
variable (idle : s.rs = .idle) (free : s.rr = none)
include idle free

theorem readReady_of_idle : readReady s = true := by simp [readReady, idle, free]

/-- An accepted `READ` with a held frame is `RD.AHEAD` (R151). -/
theorem exec_read_of_held {f : Frame} (held : s.pres = some f) : exec .read s = .next (deliverHeld f s) := by
  simp only [exec, execRead, if_pos (readReady_of_idle idle free), held]

/-- With no held frame the sticky faults are looked at, `FAILED` first (R152). -/
theorem exec_read_of_notHeld (none_ : s.pres = none) :
    exec .read s =
      if s.failed then .next { s with rr := some { status := .ioFailure, elem := none } }
      else if s.ovf then .next { s with rr := some { status := .overflow, elem := none } }
      else .next { s with nomore := false, rs := .inspect } := by
  simp only [exec, execRead, if_pos (readReady_of_idle idle free), none_, raise_reader_of_idle _ idle]

theorem exec_read_of_failed (none_ : s.pres = none) (failed : s.failed = true) :
    exec .read s = .next { s with rr := some { status := .ioFailure, elem := none } } :=
  (exec_read_of_notHeld idle free none_).trans (if_pos failed)

end

/-! ## The fetch point (R157) -/

theorem exec_rdFetch_decide (rs : s.rs = .fetch .decide) : exec .rdFetch s = .next (fetchDecide s) := by
  simp only [exec, execRdFetch, rs]

/-- Branch (a) does not apply: the loop goes on. -/
theorem not_stops_of_goesOn (goesOn : s.nomore = false ∨ (s.params.drain = .fullDrain ∧ s.pend ≠ [])) :
    ¬ (s.nomore = true ∧ (s.params.drain = .onePass ∨ s.pend = [])) := by
  rintro ⟨nomore, stops⟩
  rcases goesOn with more | ⟨drain, pend⟩
  · simp [nomore] at more
  · simp [drain, pend] at stops

end

/-- Settles O31: the held frame first, then `FAILED`, then `OVF`, else the scan. -/
theorem readStarts : Obligations.ReadStarts := by
  unfold Obligations.ReadStarts
  intro s idle free
  have start := exec_read_of_notHeld idle free
  refine ⟨fun f held => ?held, exec_read_of_failed idle free, fun none_ failed ovf => ?overflow,
    fun none_ failed ovf => ?scan⟩
  case held => rw [exec_read_of_held idle free held, exec_rdAhead_of_held held]
  case overflow => simp only [start none_, failed, ovf, Bool.false_eq_true, if_false, if_true]
  case scan => simp only [start none_, failed, ovf, Bool.false_eq_true, if_false]

/-- Settles O32: `RD.AHEAD`, and the `READ` that is `RD.AHEAD`, deliver the held frame. -/
theorem rdAheadReturnsTheHeldFrame : Obligations.RdAheadReturnsTheHeldFrame := by
  unfold Obligations.RdAheadReturnsTheHeldFrame
  exact fun s f held => ⟨exec_rdAhead_of_held held, fun idle free => exec_read_of_held idle free held⟩

/-- Settles O35: both operations write their fields whatever the state is. -/
theorem rdNeedmoreAndRdByteResults : Obligations.RdNeedmoreAndRdByteResults := by
  unfold Obligations.RdNeedmoreAndRdByteResults
  exact fun s b => ⟨rfl, rfl⟩

/-- Settles O37: the branches of the decision in their order. -/
theorem rdFetchWithoutAsking : Obligations.RdFetchWithoutAsking := by
  unfold Obligations.RdFetchWithoutAsking
  intro s rs
  rw [exec_rdFetch_decide rs]
  refine ⟨fun nomore stops => ?stops, fun goesOn => ⟨fun eosr => ?eos, fun eosr susp pend => ?timeout⟩⟩
  case stops => rw [fetchDecide, if_pos ⟨nomore, stops⟩]
  case eos => rw [fetchDecide, if_neg (not_stops_of_goesOn goesOn), if_pos eosr]
  case timeout =>
    rw [fetchDecide, if_neg (not_stops_of_goesOn goesOn), if_neg (ne_true_of_eq_false eosr), if_pos ⟨susp, pend⟩]

/-- Settles O42: both operations answer their element whatever the state is. -/
theorem rdFlushAndRdNullResults : Obligations.RdFlushAndRdNullResults := by
  unfold Obligations.RdFlushAndRdNullResults
  exact fun s => ⟨rfl, rfl⟩

/-- Settles O43: the answer `Fail` selects `RD.FAIL`, whose flag the start of every later `READ` finds. -/
theorem rdFailIsFinal : Obligations.RdFailIsFinal := by
  unfold Obligations.RdFailIsFinal
  exact fun s => ⟨microOp_fail, rfl, fun failed none_ idle free => exec_read_of_failed idle free none_ failed⟩

/-! ## `InternalFault` (R167, R216) -/

/-- Where the loop has ended, something is buffered or the stream has ended (R167). -/
theorem found_of_finish {s : State} (inv : Inv s) (rs : s.rs = .finish) :
    s.eosr = true ∨ s.corr ≠ [] ∨ s.pend ≠ [] := by
  have busy : s.rs ≠ .idle := by simp [rs]
  exact (inv.nomore_found busy (inv.finish_nomore rs)).2

/-- Only the end of the loop leads to the last line of `READ` (R150). -/
theorem finish_of_microOp_internalFault {s : State} (selected : microOp s = .internalFault) : s.rs = .finish := by
  cases rs : s.rs with
  | finish => rfl
  | idle => simp [microOp_idle rs] at selected
  | inspect => simp [microOp_inspect rs] at selected
  | fetch p => rcases microOp_fetch_cases rs with e | e | ⟨b, e⟩ | e <;> simp [e] at selected
  | nodata a => simp [microOp_nodata rs] at selected

theorem microOp_ne_internalFault {s : State} (inv : Inv s) : microOp s ≠ .internalFault := by
  intro selected
  have rs := finish_of_microOp_internalFault selected
  obtain ⟨-, -, internal⟩ := microOp_finish_iff rs
  obtain ⟨corr, pend, eosr⟩ := internal.1 selected
  simpa [corr, pend, eosr] using found_of_finish inv rs

/-- No move of a state that meets the invariant answers `InternalFault`. -/
theorem move_not_internal {c d : View} (m : Move c d) (h : Inv (stateOf c)) (before : c.rr ≠ failure .internal) :
    d.rr ≠ failure .internal := by
  cases m with
  | internal rs corr pend eosr => simpa [stateOf, corr, pend, eosr] using found_of_finish h rs
  | takeRdr | readHeld | readFailed | readOvf | popOvf | accept | acceptHold | noDataAllOvf | noDataOneOvf
  | flush | null | fail => exact nofun
  | _ => exact before

/-- Settles O56: the invariant excludes the last line of `READ`, and no other move answers `InternalFault`. -/
theorem internalFaultIsUnreachable : Obligations.InternalFaultIsUnreachable := by
  unfold Obligations.InternalFaultIsUnreachable
  intro s t inv st
  refine ⟨microOp_ne_internalFault inv, fun before => ?_⟩
  rcases step_cases st with ⟨-, rfl⟩ | ⟨-, m⟩
  · exact nofun
  · exact move_not_internal m ((inv_stateOf_view s).2 inv) before

end Sys2Proof.Proofs

/-! SUPPORT. The system commands (44_system.md): the control registers, the refusals, and that `ENC`, `DEC` and `NOP`
stand apart from the reader (R190 to R194). -/

namespace Sys2Proof.Proofs

open Sys2Proof.Machine Sys2Proof.Laws

section
variable {s : State} {src dst : Byte} {len : BitVec 9}

/-! ## `RDCR`, `WRCR` and the reserved commands (R192 to R194) -/

/-- There is no register beyond `CR3` (R33, R192). -/
theorem crRead_of_lt {n : BitVec 4} (beyond : 3 < n.toNat) : crRead n s = none := by
  have other (k : BitVec 4) (register : k.toNat ≤ 3) : n ≠ k := by
    rintro rfl
    omega
  simp only [crRead, if_neg (other 0 (by decide)), if_neg (other 1 (by decide)), if_neg (other 2 (by decide)),
    if_neg (other 3 (by decide))]

theorem exec_rdcr_of_lt {n : BitVec 4} (beyond : 3 < n.toNat) :
    exec (.rdcr n) s = .next (raise .system .badCommand s) := by
  simp only [exec, execRdcr, crRead_of_lt beyond]

theorem exec_wrcr_cr0 (s : State) (v : Half) : exec (.wrcr 0 v) s = .next (respond .none { s with cr0 := v }) := rfl

theorem exec_reserved (cmd : Byte) (s : State) : exec (.reserved cmd) s = .next (raise .system .badCommand s) := rfl

/-! ## Commands short of their data-in bytes (R196) -/

theorem takeData_of_lt {n : Nat} (few : s.hdIn.length < n) : takeData n s = none := if_pos few

theorem exec_enc_of_few (size : len.toNat ≤ 253) (few : s.hdIn.length < len.toNat) :
    exec (.enc src dst len) s = .next { s with sysWait := some (.encData src dst len) } := by
  simp only [exec, execEnc, if_neg (Nat.not_lt.2 size), takeData_of_lt few]

theorem exec_dec_of_few (few : s.hdIn.length < len.toNat) :
    exec (.dec len) s = .next { s with sysWait := some (.decData len) } := by
  simp only [exec, execDec, takeData_of_lt few]

/-! ## `ENC`, `DEC` and `NOP` beside the reader (R190 (c)) -/

theorem sysReady_iff : sysReady s = true ↔ s.sr = none ∧ s.sysWait = none := by simp [sysReady]

/-- In a state ready for a command, what the operation leaves on the system line is a function of data-in alone, and
the reader's state is as before. -/
def AnswersFromDataIn (i : Instr) : Prop :=
  ∀ d : List Byte, ∃ sr wait rest, ∀ s : State, s.hdIn = d → s.sr = none → s.sysWait = none →
    ∃ t, exec i s = .next t ∧ t.sr = sr ∧ t.sysWait = wait ∧ t.hdIn = rest ∧ readerView t = readerView s

/-- Two ready states with the same data-in are answered alike. -/
theorem AnswersFromDataIn.sameAnswer {i : Instr} {u : State} (answers : AnswersFromDataIn i) (same : s.hdIn = u.hdIn)
    (readyS : sysReady s = true) (readyU : sysReady u = true) :
    ∃ t v, exec i s = .next t ∧ exec i u = .next v ∧ t.sr = v.sr ∧ t.sysWait = v.sysWait ∧ t.hdIn = v.hdIn ∧
      readerView t = readerView s ∧ readerView v = readerView u := by
  obtain ⟨sr, wait, rest, run⟩ := answers u.hdIn
  obtain ⟨srS, waitS⟩ := sysReady_iff.1 readyS
  obtain ⟨srU, waitU⟩ := sysReady_iff.1 readyU
  obtain ⟨t, runT, srT, waitT, restT, viewT⟩ := run s same srS waitS
  obtain ⟨v, runV, srV, waitV, restV, viewV⟩ := run u rfl srU waitU
  exact ⟨t, v, runT, runV, srT.trans srV.symm, waitT.trans waitV.symm, restT.trans restV.symm, viewT, viewV⟩

theorem nop_answersFromDataIn : AnswersFromDataIn .nop :=
  fun d => ⟨_, none, d, fun _ operand _ wait => ⟨_, rfl, rfl, wait, operand, rfl⟩⟩

/-- `ENC` refuses, waits or answers by the size of its payload and the bytes on data-in (R110, R111, R196). -/
theorem enc_answersFromDataIn (src dst : Byte) (len : BitVec 9) : AnswersFromDataIn (.enc src dst len) := by
  intro d
  rcases Nat.lt_or_ge 253 len.toNat with long | size
  · exact ⟨_, none, d, fun s operand _ wait => ⟨_, exec_enc_of_lt long, rfl, wait, operand, rfl⟩⟩
  · rcases Nat.lt_or_ge d.length len.toNat with few | there
    · exact ⟨none, _, d, fun s operand sr _ =>
        ⟨_, exec_enc_of_few size (operand ▸ few), sr, rfl, operand, rfl⟩⟩
    · refine ⟨some ⟨.ok, .wire (BitVec.ofNat 9 ((d.take len.toNat).length + 4))
        (wireBytes ⟨src, dst, d.take len.toNat⟩)⟩, none, d.drop len.toNat, ?_⟩
      rintro s rfl - wait
      have run := exec_enc_of_le (src := src) (dst := dst) size there
      rw [encFinish_eq] at run
      exact ⟨_, run, rfl, wait, rfl, rfl⟩

/-- `DEC` waits or answers by the bytes on data-in, its status and its frame by the operand (R112, R196). -/
theorem dec_answersFromDataIn (len : BitVec 9) : AnswersFromDataIn (.dec len) := by
  intro d
  rcases Nat.lt_or_ge d.length len.toNat with few | there
  · exact ⟨none, _, d, fun s operand sr _ => ⟨_, exec_dec_of_few (operand ▸ few), sr, rfl, operand, rfl⟩⟩
  · cases decoded : decodeFrame (d.take len.toNat) with
    | error e =>
      refine ⟨some ⟨e.status, .none⟩, none, d.drop len.toNat, ?_⟩
      rintro s rfl - wait
      have run := exec_dec_of_le there
      rw [decFinish_of_error decoded] at run
      exact ⟨_, run, rfl, wait, rfl, rfl⟩
    | ok f =>
      refine ⟨some ⟨.ok, .frame f.src f.dst (BitVec.ofNat 8 f.payload.length) f.payload⟩, none, d.drop len.toNat, ?_⟩
      rintro s rfl - wait
      have run := exec_dec_of_le there
      rw [decFinish_of_ok decoded] at run
      exact ⟨_, run, rfl, wait, rfl, rfl⟩

end

/-! ## The statements about the system commands -/

/-- Settles O25: each of the three operations reads nothing but data-in and writes none of the reader's state. -/
theorem codecAndReaderDoNotInterfere : Obligations.CodecAndReaderDoNotInterfere := by
  unfold Obligations.CodecAndReaderDoNotInterfere
  rintro i s u (⟨src, dst, len, rfl⟩ | ⟨len, rfl⟩ | rfl)
  · exact (enc_answersFromDataIn src dst len).sameAnswer
  · exact (dec_answersFromDataIn len).sameAnswer
  · exact nop_answersFromDataIn.sameAnswer

/-- Settles O11: with too few bytes on data-in nothing can be taken. -/
theorem encAndDecWaitForTheirBytes : Obligations.EncAndDecWaitForTheirBytes := by
  unfold Obligations.EncAndDecWaitForTheirBytes
  exact fun s src dst len few => ⟨fun size => exec_enc_of_few size few, exec_dec_of_few few⟩

/-- Settles O19: `NOP` is its response. -/
theorem nopAnswersOk : Obligations.NopAnswersOk := by
  unfold Obligations.NopAnswersOk
  exact fun _ => rfl

/-- Settles O20: the four registers, and none beyond. -/
theorem rdcrAnswersTheRegister : Obligations.RdcrAnswersTheRegister := by
  unfold Obligations.RdcrAnswersTheRegister
  exact fun s => ⟨exec_rdcr_of_crRead rfl, exec_rdcr_of_crRead rfl, exec_rdcr_of_crRead rfl, exec_rdcr_of_crRead rfl,
    fun n => exec_rdcr_of_lt⟩

/-- Settles O23: `CR0` is the one register that can be written. -/
theorem wrcrWritesOnlyTheTimeout : Obligations.WrcrWritesOnlyTheTimeout := by
  unfold Obligations.WrcrWritesOnlyTheTimeout
  exact fun s v n => ⟨exec_wrcr_cr0 s v, exec_wrcr_readOnly s v⟩

/-- Settles O24: the words of R78 decode to the reserved command, which is refused whatever the word. -/
theorem reservedCommandsAreRefused : Obligations.ReservedCommandsAreRefused := by
  unfold Obligations.ReservedCommandsAreRefused
  intro s w reserved
  rw [(decodeCommand_eq_reserved_iff w).2 ((isReservedWord_iff w.cmd).2 reserved)]
  exact exec_reserved w.cmd s

end Sys2Proof.Proofs

/-! SUPPORT. Every turn of every agent answers a next state (R210, R223, log entry 24), and no step writes the two
parameters of the block (R11, R12, log entry 18). -/

namespace Sys2Proof.Proofs

open Sys2Proof.Machine Sys2Proof.Laws

/-- The five turns that run an operation answer by the lemmas on moves, the others are a next state outright. -/
theorem takeTurn_answers (n : Turn) (s : State) : ∃ t, takeTurn n s = .next t := by
  cases n with
  | host => exact (move_host s).imp fun _ => And.left
  | sys => exact (move_sysLine s).imp fun _ => And.left
  | rsy => exact (move_reader s).imp fun _ => And.left
  | xport => exact (move_transport s).imp fun _ => And.left
  | tick => exact (move_tick s).imp fun _ => And.left
  | hostData | closeAck | takeSys | takeRdr | rst => exact ⟨_, rfl⟩

/-- No move writes `CORR_CAP` or `DRAIN_POLICY`. -/
theorem move_params {c d : View} (m : Move c d) : d.params = c.params := by
  cases m <;> rfl

/-- `rst` keeps the parameters, and every other step is a move. -/
theorem step_params {s t : State} (st : step s = .next t) : t.params = s.params := by
  rcases step_cases st with ⟨-, rfl⟩ | ⟨-, m⟩
  · rfl
  · exact move_params m

/-- Settles O49: the turn that comes next answers, whoever's it is, and what it answers keeps the parameters. -/
theorem everyStepAnswersANextState : Obligations.EveryStepAnswersANextState := by
  unfold Obligations.EveryStepAnswersANextState
  intro s
  obtain ⟨t, st⟩ : ∃ t, step s = .next t := takeTurn_answers (nextTurn s) (popTurn s)
  exact ⟨t, st, step_params st⟩

end Sys2Proof.Proofs

/-! SUPPORT. Reset (R240, R241): what `rst` makes of every state, and the flags that nothing else clears. -/

namespace Sys2Proof.Proofs

open Sys2Proof.Machine Sys2Proof.Laws

theorem step_rst {s : State} (turn : nextTurn s = .rst) : step s = .next (resetBlock (popTurn s)) :=
  step_of_turn turn

/-- Settles O50: the values are those of `rst` in any state, and the reset state is what `rst` makes of itself. -/
theorem resetGivesTheTableValues : Obligations.ResetGivesTheTableValues := by
  unfold Obligations.ResetGivesTheTableValues
  intro table
  have atRst : ∀ s, table (resetBlock s) := fun s => by and_intros <;> rfl
  exact ⟨atRst State.reset, fun s turn => ⟨_, step_rst turn, atRst (popTurn s)⟩⟩

/-- No move clears a sticky flag: the four moves that write `EOSR` only add to it, as do the moves that write `OVF`,
`FAILED` and `CLOSED` (R23, R26, R27, R29). -/
theorem move_sticky {c d : View} (m : Move c d) :
    (c.failed = true → d.failed = true) ∧ (c.ovf = true → d.ovf = true) ∧
    (c.eosr = true → d.eosr = true) ∧ (c.closed = true → d.closed = true) := by
  have orLeft (b : Bool) : c.eosr = true → (c.eosr || b) = true := Bool.or_inl
  cases m with
  | sys _ _ _ _ sticky => exact ⟨id, id, id, sticky⟩
  | fail => exact ⟨fun _ => rfl, id, id, id⟩
  | popOvf => exact ⟨id, fun _ => rfl, id, id⟩
  | noDataAll | noDataOne => exact ⟨id, id, orLeft _, id⟩
  | noDataAllOvf | noDataOneOvf => exact ⟨id, fun _ => rfl, orLeft _, id⟩
  | _ => exact ⟨id, id, id, id⟩

/-- Settles O55: every step but `rst` is a move. -/
theorem stickyFlagsFallOnlyAtReset : Obligations.StickyFlagsFallOnlyAtReset := by
  unfold Obligations.StickyFlagsFallOnlyAtReset
  intro s t st running
  rcases step_cases st with ⟨rst, -⟩ | ⟨-, m⟩
  · exact absurd rst running
  · exact move_sticky m

end Sys2Proof.Proofs

/-! SUPPORT. The liveness of R259: a bound on the micro-steps the reader still makes before it settles, which every
micro-step lowers. -/

namespace Sys2Proof.Proofs

open Sys2Proof.Machine Sys2Proof.Laws

/-! ## The micro-steps left -/

/-- How many micro-steps the reader makes at most before it is idle, waits, or holds a fetched byte. A byte costs three
(inspection, fetch point, no-data event). Once `NOMORE` is set an empty `PEND` ends the loop, so the first no-data event
is counted apart: without it one more round is left. -/
def microStepsLeft (s : State) : Nat :=
  match s.rs with
  | .idle => 0
  | .inspect => 3 * s.pend.length + if s.nomore then 3 else 6
  | .fetch .decide => 3 * s.pend.length + if s.nomore then 2 else 5
  | .fetch (.wait _) => if rxReady s then 0 else 3 * s.pend.length + 5
  | .fetch (.byte _) => 0
  | .fetch .fail => 1
  | .nodata _ => 3 * max s.pend.length 1 + 1
  | .finish => 1

section
variable {s : State}

theorem microStepsLeft_idle (rs : s.rs = .idle) : microStepsLeft s = 0 := by simp only [microStepsLeft, rs]

theorem microStepsLeft_inspect (rs : s.rs = .inspect) :
    microStepsLeft s = 3 * s.pend.length + if s.nomore then 3 else 6 := by simp only [microStepsLeft, rs]

theorem microStepsLeft_decide (rs : s.rs = .fetch .decide) :
    microStepsLeft s = 3 * s.pend.length + if s.nomore then 2 else 5 := by simp only [microStepsLeft, rs]

theorem microStepsLeft_wait {m : FetchMode} (rs : s.rs = .fetch (.wait m)) :
    microStepsLeft s = if rxReady s then 0 else 3 * s.pend.length + 5 := by simp only [microStepsLeft, rs]

theorem microStepsLeft_byte {b : Byte} (rs : s.rs = .fetch (.byte b)) : microStepsLeft s = 0 := by
  simp only [microStepsLeft, rs]

theorem microStepsLeft_fail (rs : s.rs = .fetch .fail) : microStepsLeft s = 1 := by simp only [microStepsLeft, rs]

theorem microStepsLeft_nodata {a : NoData} (rs : s.rs = .nodata a) :
    microStepsLeft s = 3 * max s.pend.length 1 + 1 := by simp only [microStepsLeft, rs]

theorem microStepsLeft_finish (rs : s.rs = .finish) : microStepsLeft s = 1 := by simp only [microStepsLeft, rs]

theorem microStepsLeft_le (s : State) : microStepsLeft s ≤ 3 * s.pend.length + 6 := by
  fun_cases microStepsLeft s <;> grind

/-- With none left the reader has settled. -/
theorem settled_of_microStepsLeft (none_ : microStepsLeft s = 0) :
    s.rs = .idle ∨ microOp s = .wait ∨ ∃ b, s.rs = .fetch (.byte b) := by
  cases rs : s.rs with
  | idle => exact .inl rfl
  | inspect => rw [microStepsLeft_inspect rs] at none_; split at none_ <;> omega
  | nodata a => rw [microStepsLeft_nodata rs] at none_; omega
  | finish => rw [microStepsLeft_finish rs] at none_; omega
  | fetch p =>
    cases p with
    | decide => rw [microStepsLeft_decide rs] at none_; split at none_ <;> omega
    | byte b => exact .inr (.inr ⟨b, rfl⟩)
    | fail => rw [microStepsLeft_fail rs] at none_; omega
    | wait m =>
      rw [microStepsLeft_wait rs] at none_
      split at none_
      case isTrue ready => exact .inr (.inl ((microOp_wait rs).trans (if_pos ready)))
      case isFalse => omega

/-! ## What leaves `PEND` -/

/-- `PushCorr(PopFront(PEND))` ends the `READ`, or shortens `PEND`. -/
theorem moveOldest_idle_or_shorter (s : State) :
    (∃ t, moveOldest s = .error t ∧ t.rs = .idle) ∨
    ∃ t, moveOldest s = .ok t ∧ t.pend.length < s.pend.length ∧ t.nomore = s.nomore := by
  rcases moveOldest_cases s with ⟨-, e⟩ | ⟨v, rest, pend, -, e⟩ | ⟨v, rest, pend, -, e⟩
  · exact .inl ⟨_, e, rfl⟩
  · exact .inr ⟨_, e, by simp [pend], rfl⟩
  · exact .inl ⟨_, e, rfl⟩

/-- A no-data event ends the `READ`, or shortens a `PEND` that is not empty. -/
theorem noDataMove_idle_or_shorter (a : NoData) (s : State) :
    (∃ t, noDataMove (noDataFlags a s) = .error t ∧ t.rs = .idle) ∨
    ∃ t, noDataMove (noDataFlags a s) = .ok t ∧ t.pend.length ≤ s.pend.length - 1 ∧ t.nomore = true := by
  rcases Nat.lt_or_ge 4 s.pend.length with many | few
  · rw [noDataMove_many many]
    refine (moveOldest_idle_or_shorter (noDataFlags a s)).imp id ?_
    rintro ⟨t, e, shorter, nomore⟩
    exact ⟨t, e, Nat.le_sub_one_of_lt shorter, nomore⟩
  · rw [noDataMove_few few]
    rcases moveAll_cases _ (noDataFlags a s) rfl with e | ⟨_, _, _, -, -, e⟩
    · exact .inr ⟨_, e, Nat.zero_le _, rfl⟩
    · exact .inl ⟨_, e, rfl⟩

/-! ## Every micro-step lowers the number -/

section
variable {t : State}

/-- A `READ` that ends leaves nothing to do. -/
theorem microStepsLeft_lt_of_idle (left : microStepsLeft s ≠ 0) (idle : t.rs = .idle) :
    microStepsLeft t < microStepsLeft s := by
  rw [microStepsLeft_idle idle]
  exact Nat.pos_of_ne_zero left

/-- Back in the inspection with a shorter `PEND`. -/
theorem microStepsLeft_lt_of_shorter (rs : s.rs = .inspect) (rt : t.rs = .inspect)
    (shorter : t.pend.length < s.pend.length) (nomore : t.nomore = s.nomore) :
    microStepsLeft t < microStepsLeft s := by
  rw [microStepsLeft_inspect rs, microStepsLeft_inspect rt, nomore]
  omega

/-- What a poll finds leads to a no-data event at most. -/
theorem microStepsLeft_pollSlot_le (found : pollSlot s = some t) :
    microStepsLeft t ≤ 3 * max s.pend.length 1 + 1 := by
  rcases pollSlot_cases found with ⟨b, -, rfl⟩ | ⟨-, rfl⟩ | ⟨-, rfl⟩ | ⟨-, -, rfl⟩
  · exact (microStepsLeft_byte rfl).trans_le (Nat.zero_le _)
  · exact (microStepsLeft_nodata rfl).le
  · exact (microStepsLeft_fail rfl).trans_le (Nat.le_add_left _ _)
  · exact (microStepsLeft_fail rfl).trans_le (Nat.le_add_left _ _)

end

/-- A wait that begins with nothing to find has settled. -/
theorem microStepsLeft_beginWait (m : FetchMode) (ready : rxReady s = true) : microStepsLeft (beginWait m s) = 0 := by
  cases m <;> exact (microStepsLeft_wait rfl).trans (if_pos ready)

theorem microStepsLeft_realFetch_le (m : FetchMode) (s : State) :
    microStepsLeft (realFetch m s) ≤ 3 * max s.pend.length 1 + 1 := by
  cases poll : pollSlot s with
  | some t =>
    rw [realFetch_of_poll poll]
    exact microStepsLeft_pollSlot_le poll
  | none =>
    rw [realFetch_of_silence poll, microStepsLeft_beginWait m ((pollSlot_none s).1 poll)]
    exact Nat.zero_le _

theorem rdNeedmore_lowers (rs : s.rs = .inspect) :
    ∃ t, exec .rdNeedmore s = .next t ∧ microStepsLeft t < microStepsLeft s := by
  refine ⟨_, rfl, ?_⟩
  rw [microStepsLeft_inspect rs, microStepsLeft_decide rfl]
  cases s.nomore <;> simp

section
variable (left : microStepsLeft s ≠ 0)
include left

theorem rdPopshort_lowers (rs : s.rs = .inspect) :
    ∃ t, exec .rdPopshort s = .next t ∧ microStepsLeft t < microStepsLeft s := by
  rcases moveOldest_idle_or_shorter s with ⟨t, stopped, idle⟩ | ⟨t, moved, shorter, nomore⟩
  · exact ⟨_, exec_rdPopshort_of_error stopped, microStepsLeft_lt_of_idle left idle⟩
  · exact ⟨_, exec_rdPopshort_of_ok moved, microStepsLeft_lt_of_shorter rs rfl shorter nomore⟩

theorem rdPopbad_lowers (rs : s.rs = .inspect) :
    ∃ t, exec .rdPopbad s = .next t ∧ microStepsLeft t < microStepsLeft s := by
  cases cut : candidate s.pend with
  | none => exact ⟨_, exec_rdPopbad_of_noCandidate cut, microStepsLeft_lt_of_idle left rfl⟩
  | some parts =>
    obtain ⟨raw, rest⟩ := parts
    rcases moveOldest_idle_or_shorter { s with chkacc := xor8 raw } with
      ⟨t, stopped, idle⟩ | ⟨t, moved, shorter, nomore⟩
    · exact ⟨_, exec_rdPopbad_of_error cut stopped, microStepsLeft_lt_of_idle left idle⟩
    · exact ⟨_, exec_rdPopbad_of_ok cut moved, microStepsLeft_lt_of_shorter rs rfl shorter nomore⟩

theorem rdAccept_lowers (accepts : judge s.pend = .accept) :
    ∃ t, exec .rdAccept s = .next t ∧ microStepsLeft t < microStepsLeft s := by
  obtain ⟨f, rest, -, -, cut⟩ := candidate_of_accept accepts
  by_cases corr : s.corr = []
  · exact ⟨_, exec_rdAccept_clean cut (frameOf_wireBytes f) corr, microStepsLeft_lt_of_idle left rfl⟩
  · exact ⟨_, exec_rdAccept_noisy cut (frameOf_wireBytes f) corr, microStepsLeft_lt_of_idle left rfl⟩

/-- The verdict's micro-operation (R150). -/
theorem inspection_lowers (rs : s.rs = .inspect) :
    ∃ t, readerTurn s = .next t ∧ microStepsLeft t < microStepsLeft s := by
  rw [readerTurn_run (microOp_inspect rs)]
  cases verdict : judge s.pend with
  | short => exact rdPopshort_lowers left rs
  | accept => exact rdAccept_lowers left verdict
  | bad => exact rdPopbad_lowers left rs
  | needMore => exact rdNeedmore_lowers rs

/-- A no-data event goes back to the inspection with `NOMORE` set, and with one byte less unless `PEND` was empty. -/
theorem noData_lowers {a : NoData} (rs : s.rs = .nodata a) :
    ∃ t, readerTurn s = .next t ∧ microStepsLeft t < microStepsLeft s := by
  rw [readerTurn_run (microOp_nodata rs)]
  rcases noDataMove_idle_or_shorter a s with ⟨t, stopped, idle⟩ | ⟨t, moved, shorter, nomore⟩
  · exact ⟨_, exec_rdNodata_of_error stopped, microStepsLeft_lt_of_idle left idle⟩
  · refine ⟨_, exec_rdNodata_of_ok moved, ?_⟩
    rw [microStepsLeft_nodata rs, microStepsLeft_inspect rfl]
    simp only [nomore, if_true]
    omega

/-- The end of the loop ends the `READ`. -/
theorem finish_lowers (rs : s.rs = .finish) :
    ∃ t, readerTurn s = .next t ∧ microStepsLeft t < microStepsLeft s := by
  have selected := microOp_finish rs
  split_ifs at selected
  · exact ⟨_, readerTurn_run selected, microStepsLeft_lt_of_idle left rfl⟩
  · exact ⟨_, readerTurn_run selected, microStepsLeft_lt_of_idle left rfl⟩
  · exact ⟨_, readerTurn_internalFault selected, microStepsLeft_lt_of_idle left rfl⟩

/-- A wait that goes on has settled, so this one finds something. -/
theorem wait_lowers {m : FetchMode} (rs : s.rs = .fetch (.wait m)) :
    ∃ t, readerTurn s = .next t ∧ microStepsLeft t < microStepsLeft s := by
  have leftIs := microStepsLeft_wait rs
  split_ifs at leftIs with ready
  · exact absurd leftIs left
  · have selected : microOp s = .run .rdFetch := (microOp_wait rs).trans (if_neg ready)
    obtain ⟨t, found⟩ := Option.ne_none_iff_exists'.1 (mt (pollSlot_none s).1 ready)
    have answered : exec .rdFetch s = .next t := by rw [exec_rdFetch_wait rs, found, Option.getD_some]
    have le := microStepsLeft_pollSlot_le found
    exact ⟨t, (readerTurn_run selected).trans answered, by omega⟩

end

/-- Where the loop goes on, `RD.FETCH` leads to a no-data event at most (R157 (b) to (d)). -/
theorem microStepsLeft_fetchDecide_le (goesOn : ¬ (s.nomore = true ∧ (s.params.drain = .onePass ∨ s.pend = []))) :
    microStepsLeft (fetchDecide s) ≤ 3 * max s.pend.length 1 + 1 := by
  rw [fetchDecide, if_neg goesOn]
  split_ifs
  · exact (microStepsLeft_nodata rfl).le
  · exact (microStepsLeft_nodata rfl).le
  · exact microStepsLeft_realFetch_le _ { s with susp := false }

/-- `RD.FETCH` at the fetch point: the loop ends or goes on, and with `NOMORE` set it goes on only with bytes left. -/
theorem decide_lowers (rs : s.rs = .fetch .decide) :
    ∃ t, readerTurn s = .next t ∧ microStepsLeft t < microStepsLeft s := by
  refine ⟨_, (readerTurn_run (microOp_decide rs)).trans (exec_rdFetch_decide rs), ?_⟩
  rw [microStepsLeft_decide rs]
  by_cases stops : s.nomore = true ∧ (s.params.drain = .onePass ∨ s.pend = [])
  · rw [fetchDecide, if_pos stops, microStepsLeft_finish rfl]
    split_ifs <;> omega
  · have le := microStepsLeft_fetchDecide_le stops
    split_ifs with nomore
    · have bytes : 0 < s.pend.length := List.length_pos_iff.2 fun empty => stops ⟨nomore, .inr empty⟩
      omega
    · omega

/-- Every micro-step of a reader that has not settled lowers the number of those left. -/
theorem readerTurn_lowers (left : microStepsLeft s ≠ 0) :
    ∃ t, readerTurn s = .next t ∧ microStepsLeft t < microStepsLeft s := by
  cases rs : s.rs with
  | idle => exact absurd (microStepsLeft_idle rs) left
  | inspect => exact inspection_lowers left rs
  | nodata a => exact noData_lowers left rs
  | finish => exact finish_lowers left rs
  | fetch p =>
    cases p with
    | decide => exact decide_lowers rs
    | wait m => exact wait_lowers left rs
    | byte b => exact absurd (microStepsLeft_byte rs) left
    | fail => exact ⟨_, readerTurn_run (microOp_fail rs), microStepsLeft_lt_of_idle left rfl⟩

end

/-- The number is the bound it says it is. -/
theorem microStepsLeft_bounds (n : Nat) (s : State) (bound : microStepsLeft s ≤ n) :
    ∃ k ≤ n, microStepsLeft (microSteps k s) = 0 := by
  induction n generalizing s with
  | zero => exact ⟨0, Nat.le_refl 0, Nat.le_zero.1 bound⟩
  | succ n ih =>
    by_cases settled : microStepsLeft s = 0
    · exact ⟨0, Nat.zero_le _, settled⟩
    · obtain ⟨t, turn, lower⟩ := readerTurn_lowers settled
      obtain ⟨k, few, done⟩ := ih t (by omega)
      exact ⟨k + 1, Nat.succ_le_succ few, by rwa [microSteps, turn]⟩

/-- Settles O60: the micro-steps left are within the bound, every micro-step lowers them, and with none left the reader
has settled. -/
theorem readerSettlesInBoundedMicroSteps : Obligations.ReaderSettlesInBoundedMicroSteps := by
  unfold Obligations.ReaderSettlesInBoundedMicroSteps
  intro s
  obtain ⟨k, few, done⟩ := microStepsLeft_bounds _ s (microStepsLeft_le s)
  exact ⟨k, few, settled_of_microStepsLeft done⟩

end Sys2Proof.Proofs
